-- ==== Sys2Proof/Word.lean ====
section
/-! DEFINITION. The word types of the SFB: a 32-bit register (R7, R16) and a byte of BUF (R25). -/

namespace Sys2Proof

/-- The contents of a register: every register is 32 bits wide (R16). -/
abbrev Word := BitVec 32

/-- One byte of BUF (R25). -/
abbrev Byte := BitVec 8

end Sys2Proof
end

