-- ==== Sys2Proof/Syntax.lean ====
section
/-! DEFINITION. The commands of the SFB, one constructor for each row of the opcode table (R44), and why a
word is no command (R46). -/

namespace Sys2Proof

/-- The command set, revision 1 (R1, R44). -/
inductive Instr where
  /-- `BFX <width>, <bitoff>` (R48, R50). -/
  | bfx (width bitoff : Nat)
  /-- `ADTS.FIND` (R67). -/
  | adtsFind
  /-- `RTP.DEC` (R71). -/
  | rtpDec
  /-- `TS.SCAN` (R79). -/
  | tsScan
deriving DecidableEq, Repr

/-- Why a word selects no command; each ends with `ERR_OPCODE` (R43, R46). -/
inductive Illegal where
  /-- Case (a) of R46: the opcode field is 0x0 or 0x5 to 0xF. -/
  | reservedOpcode (opc : Nat)
  /-- Cases (b) and (c) of R46: the opcode is a command's and a reserved bit is set. -/
  | reservedBits (opc : Nat)
deriving DecidableEq, Repr

end Sys2Proof
end

