-- ==== Sys2Proof/WellFormed.lean ====
section
/-! DEFINITION. Which commands a word spells: what an assembler refuses (R48). -/

namespace Sys2Proof

/-- "An assembler refuses a width above 63 or a bitoff above 7, since no word spells it" (R48). -/
def Instr.wf : Instr → Bool
  | .bfx width bitoff => decide (width ≤ 63) && decide (bitoff ≤ 7)
  | .adtsFind => true
  | .rtpDec => true
  | .tsScan => true

end Sys2Proof
end

