-- ==== Sys2Proof/Decode.lean ====
section
/-! DEFINITION. The command word: decoding by R43, rejecting by name, and the encoder of R48. -/

namespace Sys2Proof

/-- `v[hi:lo]` of R10, LSB-0, as a natural. -/
def slice (v hi lo : Nat) : Nat := v / 2 ^ lo % 2 ^ (hi - lo + 1)

/-- The opcode field `w[3:0]` (R42). -/
def opcodeOf (w : Word) : Nat := slice w.toNat 3 0

/-- The reserved bits of format B (R43). -/
def reservedB : Word := 0xFFC0F8F0#32

/-- A word of format N: its bits 31:4 must be 0 (R42, R43). -/
def decodeN (w : Word) (i : Instr) : Except Illegal Instr :=
  if slice w.toNat 31 4 ≠ 0 then .error (.reservedBits (opcodeOf w)) else .ok i

/-- The decode of R43: the opcode, then the reserved bits, then the operands of R45. -/
def decode (w : Word) : Except Illegal Instr :=
  if opcodeOf w = 0x1 then
    if w &&& reservedB ≠ 0#32 then .error (.reservedBits 0x1)
    else .ok (.bfx (slice w.toNat 21 16) (slice w.toNat 10 8))
  else if opcodeOf w = 0x2 then decodeN w .adtsFind
  else if opcodeOf w = 0x3 then decodeN w .rtpDec
  else if opcodeOf w = 0x4 then decodeN w .tsScan
  else .error (.reservedOpcode (opcodeOf w))

/-- The word of a command (R48): `0x1 OR (bitoff << 8) OR (width << 16)`, or the word of format N. -/
def encode : Instr → Word
  | .bfx width bitoff => BitVec.ofNat 32 (0x1 ||| (bitoff <<< 8) ||| (width <<< 16))
  | .adtsFind => 0x00000002#32
  | .rtpDec => 0x00000003#32
  | .tsScan => 0x00000004#32

/-- The command word made of the low `nbits` bits of `w`; no command is longer than 32 bits (R47). -/
def commandWord (nbits w : Nat) : Word := BitVec.ofNat 32 (w % 2 ^ nbits)

/-- What the decoder reads from an instruction whose bits are `w`, numbered as the opcode table numbers
them. A bit above bit 31 is in no command word, so it is refused. DESIGN CHOICE (safe); log 14. -/
def decodeTableWord (nbits w : Nat) : Option Instr :=
  if w % 2 ^ nbits < 2 ^ 32 then (decode (commandWord nbits w)).toOption else none

end Sys2Proof
end

