-- ==== Sys2Proof/Config.lean ====
section
/-! DEFINITION. What an implementation fixes (R5, R6) and the values the spec leaves free (R34, U1). -/

namespace Sys2Proof

/-- The implementation parameters of 00_scope.md section 4. -/
structure Config where
  /-- `BUF_CAP`, the capacity of BUF in bytes (R5). -/
  bufCap : Nat
  /-- Entries 1 to 10 of `FREQ_TABLE` in Hz, entry `k` at place `k - 1` (R6; entries 0 and 11 are fixed). -/
  freq : Vector Word 10
deriving DecidableEq, Repr

/-- The constraint of R5: `8191 <= BUF_CAP <= 65536`. -/
abbrev Config.wf (c : Config) : Prop := 8191 ≤ c.bufCap ∧ c.bufCap ≤ 65536

/-- The values R5 and R6 use in every example.
DESIGN CHOICE (unsafe for a claim about `State.reset` alone): both are parameters; log 2. -/
def Config.default : Config where
  bufCap := 65536
  freq := #v[88200, 64000, 48000, 44100, 32000, 24000, 22050, 16000, 12000, 11025]

/-- The byte a host `BufRead` returns at an address not written since reset, drawn afresh for each
number (R34, U1 `any value`): nothing is known of it. DESIGN CHOICE (safe); log 4. -/
opaque Config.freeByte : Nat → Byte

/-- What `MemRead` answers at an address that holds no byte. No command comes to it: the footprint
check of R100 faults first. Nothing is known of it. DESIGN CHOICE (safe); log 5. -/
opaque Config.noByte : Nat → Byte

end Sys2Proof
end

