-- ==== Sys2Proof/Machine/State.lean ====
section
/-! DEFINITION. The state of the SFB as plain data (R15), why a step stops, and the state after reset (R30). -/

namespace Sys2Proof.Machine

/-- Why the machine stops. -/
inductive Fault where
  /-- A command's read footprint holds a byte the host has not written since reset (R100, U1: treatment
  `fault`). Raised by every command, at the lowest such address. Safe: the hardware goes on with an
  unspecified value, the model stops. Log 3. -/
  | unwrittenByte (a : Nat)
deriving DecidableEq, Repr

/-- Why a step is refused. -/
inductive Refusal where
  /-- The command has no meaning yet. Raised by no arm of `exec`: all four commands have theirs. Safe. -/
  | notModelled (mnemonic : String)
deriving DecidableEq, Repr

/-- The bytes of BUF the host has written, as (address, byte) with addresses strictly rising; an address
that is not listed holds no byte (R25, R100). -/
abbrev Memory := List Host.Cell

/-- The word of a host register write: a literal, or the value the host's last register read returned
(the `MOV` of R49). DESIGN CHOICE (safe); log 7. -/
inductive WordSource where
  | imm (v : Word)
  | lastRead
deriving DecidableEq, Repr

/-- The byte of a host buffer write: a literal, or the value the host's last buffer read returned
(the `CP` of R49). DESIGN CHOICE (safe); log 7. -/
inductive ByteSource where
  | imm (v : Byte)
  | lastRead
deriving DecidableEq, Repr

/-- What the outside world does to the SFB: the four transactions of R32, a register access narrower than
a word (U8; log 9), and reset (R99; log 6). -/
inductive HostEvent where
  | regRead (off : Nat)
  | regWrite (off : Nat) (d : WordSource)
  | bufRead (a : Nat)
  | bufWrite (a : Nat) (d : ByteSource)
  | regReadNarrow (off : Nat)
  | regWriteNarrow (off : Nat) (d : WordSource)
  | reset
deriving DecidableEq, Repr

/-- The architectural state of R15 (cmd to buf), the parameter of R6 (freq), and the model's own fields for
the host's side (host to freeCount; log 1, 4, 7). -/
structure State where
  /-- CMD: the last command word written (R17). -/
  cmd : Word
  /-- STATUS: CODE in bits 3:0, OPC in bits 7:4 (R21). -/
  status : Word
  /-- POS: the start of the window (R18). -/
  pos : Word
  /-- END: the end of the window, exclusive (R19). -/
  wend : Word
  /-- CAP: reads `BUF_CAP` (R20); the one home of the parameter `BUF_CAP` (R5). -/
  cap : Word
  /-- RES0 to RES7 (R23). -/
  res : Vector Word 8
  /-- BUF: the bytes written since reset (R25, R100). -/
  buf : Memory
  /-- The parameter `FREQ_TABLE`, entries 1 to 10 (R6). -/
  freq : Vector Word 10
  /-- What the host does next, oldest first (R8, R40). DESIGN CHOICE; log 1. -/
  host : List HostEvent
  /-- The value the host's last register read returned (R32). DESIGN CHOICE; log 7. -/
  rdReg : Word
  /-- The value the host's last buffer read returned (R32). DESIGN CHOICE; log 7. -/
  rdBuf : Byte
  /-- How many free bytes have been drawn (U1). DESIGN CHOICE; log 4. -/
  freeCount : Nat
deriving DecidableEq, Repr

/-- RES0 to RES7 all 0 (R23, R30). -/
def noResults : Vector Word 8 := #v[0#32, 0#32, 0#32, 0#32, 0#32, 0#32, 0#32, 0#32]

/-- The state after reset of an SFB with the given parameters (R30, R99, R100). -/
def State.resetWith (c : Config) : State where
  cmd := 0x00000000#32
  status := 0x00000000#32
  pos := 0#32
  wend := 0#32
  cap := BitVec.ofNat 32 c.bufCap
  res := noResults
  buf := []
  freq := c.freq
  host := []
  rdReg := 0#32
  rdBuf := 0#8
  freeCount := 0

/-- The state after reset, with the parameters at the values of the spec's examples (log 2). -/
def State.reset : State := State.resetWith Config.default

end Sys2Proof.Machine
end

