-- ==== Sys2Proof/Machine/Flags.lean ====
section
/-! DEFINITION. STATUS, the SFB's only flag or condition-code state (R21, R22). -/

namespace Sys2Proof.Machine

/-- The values of `STATUS.CODE` (R22). -/
inductive StatusCode where
  | idle | ok | found | needMore | noSync | truncated | errRange | errOpcode
deriving DecidableEq, Repr

/-- The number of a status code (R22). -/
def StatusCode.code : StatusCode → Nat
  | .idle => 0
  | .ok => 1
  | .found => 2
  | .needMore => 3
  | .noSync => 4
  | .truncated => 5
  | .errRange => 6
  | .errOpcode => 7

/-- `{0x000000 : 24 bits, opc : 4 bits, code : 4 bits}` (R12, R21). -/
def statusWord (opc code : Nat) : Word := BitVec.ofNat 32 (opc * 2 ^ 4 + code)

/-- `STATUS.CODE` (R21). -/
def State.code (s : State) : Nat := slice s.status.toNat 3 0

/-- `STATUS.OPC` (R21). -/
def State.opc (s : State) : Nat := slice s.status.toNat 7 4

end Sys2Proof.Machine
end

