-- ==== Sys2Proof/Machine/Ops.lean ====
section
/-! DEFINITION. The named operations over BUF and the registers: reading and writing a byte of BUF (R33, R34),
reading and writing a register (R16 to R24, R36), ending a command (`complete` and `raise`, R12) and reset (R99).

The SFB takes no exception (R85, R90): `raise` is the one shared operation a condition ends in, and there is no
return from it. -/

namespace Sys2Proof.Machine

/-- The outcome of a command or of a step. -/
abbrev Result := Host.Outcome State Fault Refusal

/-! ### BUF -/

/-- The byte at an address, if the host has written one since reset. -/
def Memory.read : Memory → Nat → Option Byte
  | [], _ => none
  | (a, v) :: m, b => if a = b then some v else Memory.read m b

/-- `MemWrite(b, 1, x)` (R12), keeping the addresses strictly rising. -/
def Memory.write : Memory → Nat → Byte → Memory
  | [], b, x => [(b, x)]
  | (a, v) :: m, b, x =>
    if b < a then (b, x) :: (a, v) :: m
    else if b = a then (b, x) :: m
    else (a, v) :: Memory.write m b x

/-- The canonical form: addresses strictly rising, so that equal memories are equal lists. (An unlisted
address reads as no byte, so no listed byte can equal what it reads as.) -/
abbrev Memory.wf (m : Memory) : Prop := m.Pairwise fun x y => x.1 < y.1

/-- Every address is an address of BUF (R25). -/
abbrev Memory.below (m : Memory) (cap : Nat) : Prop := ∀ c ∈ m, c.1 < cap

/-! ### Registers -/

/-- The registers by name (R15). -/
inductive Reg where
  | cmd | status | pos | wend | cap
  | res (i : Fin 8)
deriving DecidableEq, Repr

/-- `offset` of R49. -/
def Reg.offset : Reg → Nat
  | .cmd => 0x00
  | .status => 0x04
  | .pos => 0x08
  | .wend => 0x0C
  | .cap => 0x10
  | .res i => 0x20 + 4 * i.val

/-- The register at an offset: none at a reserved offset (R24), a misaligned one, or one at or above 0x40
(R36). -/
def Reg.ofOffset (off : Nat) : Option Reg :=
  if off = 0x00 then some .cmd
  else if off = 0x04 then some .status
  else if off = 0x08 then some .pos
  else if off = 0x0C then some .wend
  else if off = 0x10 then some .cap
  else if h : off % 4 = 0 ∧ 0x20 ≤ off ∧ off < 0x40 then
    some (.res ⟨(off - 0x20) / 4, by omega⟩)
  else none

/-- What a register holds. -/
def State.reg (s : State) : Reg → Word
  | .cmd => s.cmd
  | .status => s.status
  | .pos => s.pos
  | .wend => s.wend
  | .cap => s.cap
  | .res i => s.res[i]

/-- `RegRead(off)` (R32): 0 where there is no register (R24, R36). -/
def regRead (s : State) (off : Nat) : Word :=
  match Reg.ofOffset off with
  | some r => s.reg r
  | none => 0#32

/-- The register's new value in a host write, without the command that a write of CMD then runs: STATUS,
CAP and RES are read only (R16), an offset without a register discards the write (R24, R36). -/
def storeReg (off : Nat) (v : Word) (s : State) : State :=
  match Reg.ofOffset off with
  | some .cmd => { s with cmd := v }
  | some .pos => { s with pos := v }
  | some .wend => { s with wend := v }
  | some .status => s
  | some .cap => s
  | some (.res _) => s
  | none => s

/-! ### Ending a command -/

/-- `zext_32` of R10, defined there for `v < 2^32`, which R14 gives for every result. DEDUCED (safe in
every state of the invariant); log 12. -/
def zext32 (v : Nat) : Word := BitVec.ofNat 32 v

/-- The result bank of a list of results; "Omitted trailing arguments are 0" (R12). -/
def resultBank (rs : List Nat) : Vector Word 8 :=
  #v[zext32 (rs.getD 0 0), zext32 (rs.getD 1 0), zext32 (rs.getD 2 0), zext32 (rs.getD 3 0),
     zext32 (rs.getD 4 0), zext32 (rs.getD 5 0), zext32 (rs.getD 6 0), zext32 (rs.getD 7 0)]

/-- `complete(code, r0, ..., r7)` of R12: every RES and the whole of STATUS are written, with OPC taken from
`REG.CMD[3:0]`. DEDUCED (safe): from CMD, not from the decoded command; log 13. -/
def complete (c : StatusCode) (rs : List Nat) (s : State) : State :=
  { s with res := resultBank rs, status := statusWord (opcodeOf s.cmd) c.code }

/-- `raise E()` of R12: the command ends with status code E and every result register 0. No trap (R85). -/
def raise (c : StatusCode) (s : State) : State := complete c [] s

/-! ### Reset -/

/-- Reset (R99, R100): every register takes its value of R30, and BUF holds no byte. The parameters and the
host's own side stay. DESIGN CHOICE (safe); log 6. -/
def applyReset (s : State) : State :=
  { s with cmd := 0#32, status := 0#32, pos := 0#32, wend := 0#32, res := noResults, buf := [] }

end Sys2Proof.Machine
end

