-- ==== Sys2Proof/Machine/Operands.lean ====
section
/-! DEFINITION. The operands of every command: the window [POS, END) (R13), its check (R43), the bytes a command
reads (R100), and the stream bits and fields of BUF (R11, R12). -/

namespace Sys2Proof.Machine

/-- `REG.POS` as a natural. -/
def State.posN (s : State) : Nat := s.pos.toNat

/-- `REG.END` as a natural. -/
def State.endN (s : State) : Nat := s.wend.toNat

/-- `BUF_CAP` as a natural (R20). -/
def State.capN (s : State) : Nat := s.cap.toNat

/-- The window check of R43, passed: `REG.POS <= REG.END <= BUF_CAP`. -/
abbrev State.windowOk (s : State) : Prop := s.posN ≤ s.endN ∧ s.endN ≤ s.capN

/-- The window check every command makes first (R43), then the rest of the command. -/
def withWindow (s : State) (rest : Result) : Result :=
  if s.windowOk then rest else .next (raise .errRange s)

/-- The lowest of the `n` addresses from `a` on that holds no byte. -/
def firstUnwritten (m : Memory) (a : Nat) : Nat → Option Nat
  | 0 => none
  | n + 1 => if (m.read a).isSome then firstUnwritten m (a + 1) n else some a

/-- A command that reads the `n` bytes from `a` on (R100): it faults if the host has not written one of
them since reset (U1). -/
def reading (s : State) (a n : Nat) (rest : Result) : Result :=
  match firstUnwritten s.buf a n with
  | some b => .fault (.unwrittenByte b)
  | none => rest

/-- A command whose read footprint is the whole window (R100, D39). -/
def readingWindow (s : State) (rest : Result) : Result :=
  reading s s.posN (s.endN - s.posN) rest

/-- `MemRead(a, 1)` (R12). -/
def memRead (s : State) (a : Nat) : Byte := (s.buf.read a).getD (Config.noByte a)

/-- `BitAt(t)`: the stream bit at absolute position `t` (R11, R12). -/
def bitAt (s : State) (t : Nat) : Nat := slice (memRead s (t / 8)).toNat (7 - t % 8) (7 - t % 8)

/-- `Field(q, w)`: the `w`-bit value whose most significant bit is stream bit `q` (R12). -/
def field (s : State) (q w : Nat) : Nat :=
  ((List.range w).map fun k => bitAt s (q + k) * 2 ^ (w - 1 - k)).sum

end Sys2Proof.Machine
end

