-- ==== Sys2Proof/Machine/Adts.lean ====
section
/-! DEFINITION. The ADTS frame synchronizer, ADTS.FIND (41_adts.md). -/

namespace Sys2Proof.Machine

/-- The candidate test at `p` (R57). -/
def isCandidate (s : State) (p : Nat) : Bool :=
  decide (memRead s p = 0xFF#8) && decide (slice (memRead s (p + 1)).toNat 7 4 = 0xF)

/-- The 13-bit frame length `L` of the header at `p` (R59). -/
def frameLength (s : State) (p : Nat) : Nat := field s (8 * p + 30) 13

/-- A candidate that is no false positive by length (R57, R60). -/
def accepts (s : State) (p : Nat) : Bool := isCandidate s p && decide (7 ≤ frameLength s p)

/-- Where a scan ends. -/
inductive ScanEnd where
  /-- Fewer than 7 bytes remain from `p` on (R58, R63). -/
  | noSync (p : Nat)
  /-- The candidate at `p` has a frame length of at least 7 (R61, R62). -/
  | header (p : Nat)
deriving DecidableEq, Repr

/-- The loop of R67 at `p` with `rem` bytes left in the window, `rem = REG.END - p`: the 7-byte check (R58),
the candidate and length tests (R57, R60), and else one byte on (R68). -/
def scan (s : State) : (rem p : Nat) → ScanEnd
  | 0, p => .noSync p
  | rem + 1, p =>
    if rem + 1 < 7 then .noSync p
    else if accepts s p then .header p
    else scan s rem (p + 1)

/-- `HDR_A`: stream bits 12 to 29 of the header at `p` (R64). -/
def hdrA (s : State) (p : Nat) : Nat := field s (8 * p + 12) 18

/-- `HDR_B`: stream bits 43 to 55 of the header at `p` (R64). -/
def hdrB (s : State) (p : Nat) : Nat := field s (8 * p + 43) 13

/-- `FREQ_TABLE[i]` (R6): entries 0 and 11 are fixed, entries 1 to 10 the parameter; 0, meaning Unknown, for
12 and above (R66). -/
def freqTable (inner : Vector Word 10) (i : Nat) : Nat :=
  if i = 0 then 96000
  else if i = 11 then 8000
  else if h : i ≤ 10 then (inner[i - 1]'(by omega)).toNat
  else 0

/-- `FREQ_HZ` of the header at `p` (R66). -/
def freqHz (s : State) (p : Nat) : Nat := freqTable s.freq (slice (hdrA s p) 11 8)

/-- The profile classes of R65. -/
inductive Profile where
  | main | lc | ssr | unknown
deriving DecidableEq, Repr

/-- The profile class of an `HDR_A` value: its field [13:12], "0 = Main, 1 = LC, 2 = SSR, 3 = Unknown" (R65). -/
def profileOf (a : Nat) : Profile :=
  match slice a 13 12 with
  | 0 => .main
  | 1 => .lc
  | 2 => .ssr
  | _ => .unknown

/-- The outcome of R67 where the scan ended. -/
def adtsReport (s : State) : ScanEnd → State
  | .noSync p => complete .noSync [p, 0, 0, 0, p - s.posN] s
  | .header p =>
    if s.endN - p < frameLength s p then
      complete .needMore [p, p, frameLength s p, 0, p - s.posN, hdrA s p, hdrB s p, freqHz s p] s
    else
      complete .found
        [p + frameLength s p, p, frameLength s p, frameLength s p, p - s.posN,
          hdrA s p, hdrB s p, freqHz s p] s

/-- `ADTS.FIND` (R67): the window check (R43), then the scan of the window from POS. -/
def execAdtsFind (s : State) : Result :=
  withWindow s <| readingWindow s <|
    .next (adtsReport s (scan s (s.endN - s.posN) s.posN))

end Sys2Proof.Machine
end

