-- ==== Sys2Proof/Machine/BitField.lean ====
section
/-! DEFINITION. The bit-field decoder, BFX (40_bitfield.md). -/

namespace Sys2Proof.Machine

/-- `BFX <width>, <bitoff>` (R50): the window check (R43), WIDTH (R51), the field's end (R52), and then the
field (R53) with the byte index and bit offset just after it. (A width or bit offset that no word spells runs
the same formula. DESIGN CHOICE, safe; log 11.) -/
def execBfx (width bitoff : Nat) (s : State) : Result :=
  withWindow s <|
    if width = 0 ∨ 32 < width then .next (raise .errRange s)
    else if 8 * s.endN < 8 * s.posN + bitoff + width then .next (raise .errRange s)
    else
      let q := 8 * s.posN + bitoff
      reading s s.posN ((q + width - 1) / 8 - s.posN + 1) <|
        .next (complete .ok [field s q width, (q + width) / 8, (q + width) % 8] s)

end Sys2Proof.Machine
end

