-- ==== Sys2Proof/Machine/MpegTs.lean ====
section
/-! DEFINITION. The MPEG-TS packet-boundary validator, TS.SCAN (43_mpegts.md). -/

namespace Sys2Proof.Machine

/-- Where a walk ends: the next stride's address, the accepted strides, and STOP (R79). -/
structure WalkEnd where
  next : Nat
  count : Nat
  stop : Nat
deriving DecidableEq, Repr

/-- The loop of R79 at stride address `a` with `c` strides accepted and `full` full strides left in the window,
`full = (REG.END - a) div 188`: none left is the check `REG.END - a < 188` (R81), which comes before the
sync-byte check (R82). -/
def walk (s : State) : (full a c : Nat) → WalkEnd
  | 0, a, c => ⟨a, c, 0⟩
  | full + 1, a, c => if memRead s a ≠ 0x47#8 then ⟨a, c, 1⟩ else walk s full (a + 188) (c + 1)

/-- The outcome of R79 where the walk ended. -/
def tsReport (s : State) (e : WalkEnd) : State :=
  complete .ok [e.next, e.count, e.stop, s.endN - e.next] s

/-- `TS.SCAN` (R79): the window check (R43), then the walk of the window from POS. -/
def execTsScan (s : State) : Result :=
  withWindow s <| readingWindow s <|
    .next (tsReport s (walk s ((s.endN - s.posN) / 188) s.posN 0))

end Sys2Proof.Machine
end

