-- ==== Sys2Proof/Machine/Rtp.lean ====
section
/-! DEFINITION. The RTP header decoder, RTP.DEC (42_rtp.md). -/

namespace Sys2Proof.Machine

/-- The payload classes of R75. -/
inductive PayloadClass where
  | other | audio | h261 | mpv | mp2t | h263 | h264
deriving DecidableEq, Repr

/-- The numeric code of a payload class (R75). -/
def PayloadClass.code : PayloadClass → Nat
  | .other => 0
  | .audio => 1
  | .h261 => 2
  | .mpv => 3
  | .mp2t => 4
  | .h263 => 5
  | .h264 => 6

/-- The class of a payload type (R75). -/
def payloadClass (pt : Nat) : PayloadClass :=
  if pt ≤ 18 then .audio
  else if pt = 31 then .h261
  else if pt = 32 then .mpv
  else if pt = 33 then .mp2t
  else if pt = 34 then .h263
  else if pt = 96 then .h264
  else .other

/-- The results of a datagram of at least 12 bytes (R71). -/
def rtpReport (s : State) : State :=
  let q := 8 * s.posN
  let h := field s q 16
  let pt := slice h 6 0
  complete .ok
    [s.posN + 12, s.endN - s.posN - 12, h, field s (q + 16) 16, field s (q + 32) 32,
      field s (q + 64) 32, (payloadClass pt).code, pt] s

/-- `RTP.DEC` (R71): the window check (R43), then the datagram's length (R73), then the header (R72, R74, R75).
The read footprint is the whole window, a truncated datagram's too (R100). DEDUCED (safe); log 8. -/
def execRtpDec (s : State) : Result :=
  withWindow s <| readingWindow s <|
    if s.endN - s.posN < 12 then .next (raise .truncated s)
    else .next (rtpReport s)

end Sys2Proof.Machine
end

