-- ==== Sys2Proof/Machine/Dispatch.lean ====
section
/-! DEFINITION. One arm for each command (R43, R44). -/

namespace Sys2Proof.Machine

def exec (i : Instr) (s : State) : Host.Outcome State Fault Refusal :=
  match i with
  | .bfx width bitoff => Sys2Proof.Machine.execBfx width bitoff s
  | .adtsFind => Sys2Proof.Machine.execAdtsFind s
  | .rtpDec => Sys2Proof.Machine.execRtpDec s
  | .tsScan => Sys2Proof.Machine.execTsScan s

end Sys2Proof.Machine
end

