-- ==== Sys2Proof/Machine/Bus.lean ====
section
/-! DEFINITION. The host's side: each transaction of R32 as one step, the command that a write of CMD issues
(R17, R43), and reset (R99). -/

namespace Sys2Proof.Machine

/-- The engine step for the word in CMD (R43): `ERR_OPCODE` for an illegal word, else the command. -/
def issue (s : State) : Result :=
  match decode s.cmd with
  | .error _ => .next (raise .errOpcode s)
  | .ok i => exec i s

/-- `RegWrite(off, v)` (R16, R17): the register's new value first, and then, for CMD alone, the engine step. -/
def regWrite (off : Nat) (v : Word) (s : State) : Result :=
  if Reg.ofOffset off = some .cmd then issue (storeReg off v s) else .next (storeReg off v s)

/-- `BufRead(a)` (R34): the byte last written, a free byte where there is none (U1), 0 at or above `BUF_CAP`. -/
def bufRead (a : Nat) (s : State) : State :=
  if a < s.capN then
    match s.buf.read a with
    | some v => { s with rdBuf := v }
    | none => { s with rdBuf := Config.freeByte s.freeCount, freeCount := s.freeCount + 1 }
  else { s with rdBuf := 0#8 }

/-- `BufWrite(a, v)` (R33). -/
def bufWrite (a : Nat) (v : Byte) (s : State) : State :=
  if a < s.capN then { s with buf := s.buf.write a v } else s

/-- The word a register write writes. -/
def WordSource.value (d : WordSource) (s : State) : Word :=
  match d with
  | .imm v => v
  | .lastRead => s.rdReg

/-- The byte a buffer write writes. -/
def ByteSource.value (d : ByteSource) (s : State) : Byte :=
  match d with
  | .imm v => v
  | .lastRead => s.rdBuf

/-- One event of the outside world, whole (R37, R88). -/
def perform (e : HostEvent) (s : State) : Result :=
  match e with
  | .regRead off => .next { s with rdReg := regRead s off }
  | .regWrite off d => regWrite off (d.value s) s
  | .bufRead a => .next (bufRead a s)
  | .bufWrite a d => .next (bufWrite a (d.value s) s)
  | .regReadNarrow _ => .next { s with rdReg := 0#32 }
  | .regWriteNarrow _ _ => .next s
  | .reset => .next (applyReset s)

/-- The write of CMD that issues the command word made of the low `nbits` bits of `w` (R17, R29). -/
def issueEvent (nbits w : Nat) : HostEvent :=
  .regWrite Reg.cmd.offset (.imm (commandWord nbits w))

end Sys2Proof.Machine
end

