-- ==== Sys2Proof/Machine/Step.lean ====
section
/-! DEFINITION. One step: the next event of the outside world (R8, R40). -/

namespace Sys2Proof.Machine

/-- One host transaction, the first of those still to come. With none to come the SFB "holds its state and
does nothing" (R97, R98). DESIGN CHOICE (safe); log 1. -/
def step (s : State) : Host.Outcome State Fault Refusal :=
  match s.host with
  | [] => .next s
  | e :: rest => perform e { s with host := rest }

/-- `s` with the write of CMD that issues the given command word as the host's next transaction: the SFB
fetches nothing (R29), so this is where a command comes from. -/
def State.withFetchWord (s : State) (nbits w : Nat) : State :=
  { s with host := issueEvent nbits w :: s.host }

end Sys2Proof.Machine
end

