-- ==== Sys2Proof/Machine/HostProgram.lean ====
section
/-! DEFINITION. The statements of a host program and the transactions each one is (R48, R49). -/

namespace Sys2Proof.Machine

/-- A statement of R49. -/
inductive HostStmt where
  /-- `WR <reg>, <value>` -/
  | wr (r : Reg) (v : Word)
  /-- `RD <reg>` -/
  | rd (r : Reg)
  /-- `WB <addr>: <b0> <b1> ...` -/
  | wb (a : Nat) (bs : List Byte)
  /-- `<command syntax of rule R48>` -/
  | command (i : Instr)
  /-- `MOV <reg>, <src>` -/
  | mov (r src : Reg)
  /-- `CP <dst>, <src>, <n>` -/
  | cp (dst src n : Nat)
deriving DecidableEq, Repr

/-- The transactions of `WB`, in ascending order (R49). -/
def writeBytes (a : Nat) : List Byte → List HostEvent
  | [] => []
  | b :: bs => .bufWrite a (.imm b) :: writeBytes (a + 1) bs

/-- The transactions of `CP`, in ascending order (R49). -/
def copyBytes (dst src : Nat) : Nat → List HostEvent
  | 0 => []
  | n + 1 => .bufRead src :: .bufWrite dst .lastRead :: copyBytes (dst + 1) (src + 1) n

/-- The transactions of a statement (R49). -/
def HostStmt.expand : HostStmt → List HostEvent
  | .wr r v => [.regWrite r.offset (.imm v)]
  | .rd r => [.regRead r.offset]
  | .wb a bs => writeBytes a bs
  | .command i => [.regWrite Reg.cmd.offset (.imm (encode i))]
  | .mov r src => [.regRead src.offset, .regWrite r.offset .lastRead]
  | .cp dst src n => copyBytes dst src n

/-- The transactions of a host program. -/
def hostProgram (p : List HostStmt) : List HostEvent := p.flatMap HostStmt.expand

end Sys2Proof.Machine
end

