-- ==== Sys2Proof/Safety.lean ====
section
/-! DEFINITION. What counts as a safe state and run of the SFB, in the terms the claims use. -/

namespace Sys2Proof.Machine

/-- The byte at an address as a natural, `MemRead(a, 1)` (R12). -/
def State.byte (s : State) (a : Nat) : Nat := (memRead s a).toNat

/-- The host has written every byte of the address range `lo` to `hi - 1` since reset (R100). -/
def State.written (s : State) (lo hi : Nat) : Prop := ∀ a, lo ≤ a → a < hi → (s.buf.read a).isSome

/-- A command that reads its whole window reads it without a fault: the window passes the check of R43, the
host has written all of it (R100), and `BUF_CAP` is in its range (R5). -/
structure State.Ready (s : State) : Prop where
  window : s.windowOk
  bytes : s.written s.posN s.endN
  cap : s.capN ≤ 65536

/-- RES0 to RES7 as naturals. -/
def State.resN (s : State) : List Nat := s.res.toList.map BitVec.toNat

/-- RESi as a natural. -/
def State.resultN (s : State) (i : Fin 8) : Nat := s.res[i].toNat

/-- The big-endian value of the `n` bytes from `a` on: `{MemRead(a,1), ..., MemRead(a+n-1,1)}` (R10, R53). -/
def State.bigEndian (s : State) (a : Nat) : Nat → Nat
  | 0 => 0
  | n + 1 => s.bigEndian a n * 2 ^ 8 + s.byte (a + n)

/-- From `s`, with the command's word in CMD, a command has ended in `t` with a code and eight results: STATUS
and RES are written and nothing else is (R12, R21, R85). -/
def State.Ends (s t : State) (code : Nat) (results : List Nat) : Prop :=
  t.status.toNat = s.cmd.toNat % 16 * 16 + code ∧ t.resN = results ∧
    t = { s with status := t.status, res := t.res }

/-- The frame length field of the header at `p`, in bytes (R59). -/
def State.lengthAt (s : State) (p : Nat) : Nat :=
  s.byte (p + 3) % 4 * 2048 + s.byte (p + 4) * 8 + s.byte (p + 5) / 32

/-- The position is the start of an ADTS frame for the scan: a candidate (R57) whose length is not a false
positive (R60), in bytes. -/
abbrev State.frameAt (s : State) (p : Nat) : Prop :=
  s.byte p = 0xFF ∧ s.byte (p + 1) / 16 = 0xF ∧ 7 ≤ s.lengthAt p

/-- `k` steps, each a host transaction, stopping at the first fault or refusal: the host's `Core.run` at this
machine's own types (R98). -/
def run : Nat → State → Result
  | 0, s => .next s
  | k + 1, s =>
    match step s with
    | .next s' => run k s'
    | .fault f => .fault f
    | .refused r => .refused r

/-- The code of the outcome goes with the command word in CMD (R22, R86). -/
def State.outcomeFits (s : State) : Prop :=
  match s.code with
  | 0 => s.cmd = 0#32
  | 1 => ∃ i, decode s.cmd = .ok i ∧ i ≠ .adtsFind
  | 2 => decode s.cmd = .ok .adtsFind
  | 3 => decode s.cmd = .ok .adtsFind
  | 4 => decode s.cmd = .ok .adtsFind
  | 5 => decode s.cmd = .ok .rtpDec
  | 6 => ∃ i, decode s.cmd = .ok i
  | 7 => ∃ e, decode s.cmd = .error e
  | _ => False

/-- What is true of the SFB in every state a run comes to. -/
structure State.Inv (s : State) : Prop where
  /-- The bytes of BUF are in canonical form. -/
  canonical : s.buf.wf
  /-- No byte lies outside BUF (R25). -/
  inside : s.buf.below s.capN
  /-- The constraint of R5. -/
  capacity : 8191 ≤ s.capN ∧ s.capN ≤ 65536
  /-- STATUS is CODE and OPC and nothing else, and OPC is `CMD[3:0]` (R21). -/
  status : s.status = statusWord (opcodeOf s.cmd) s.code
  /-- The code is one of R22 and goes with the command. -/
  outcome : s.outcomeFits
  /-- IDLE, TRUNCATED, ERR_RANGE and ERR_OPCODE leave every result 0 (R23, R30). -/
  clear : s.code = 0 ∨ 5 ≤ s.code → s.res = noResults

end Sys2Proof.Machine
end

