-- ==== Sys2Proof/Certificates/Slice0/Obligations.lean ====
section
/-! DEFINITION. The statements for the provers. -/

open Sys2Proof Sys2Proof.Machine

/-! ### Command words (30_encoding.md) -/

/-- The words R48 and 95_test_vectors.md spell decode to their commands, and illegal ones to none. -/
def Obligations.SpelledWordsDecode : Prop :=
  decode 0x000D0601#32 = .ok (.bfx 13 6) ∧ decode 0x003F0001#32 = .ok (.bfx 63 0) ∧
  decode 0x00200701#32 = .ok (.bfx 32 7) ∧ decode 0x00000002#32 = .ok .adtsFind ∧
  decode 0x00000003#32 = .ok .rtpDec ∧ decode 0x00000004#32 = .ok .tsScan ∧
  decode 0x00000000#32 = .error (.reservedOpcode 0) ∧ decode 0xFFFFFFFF#32 = .error (.reservedOpcode 15) ∧
  decode 0x00000012#32 = .error (.reservedBits 2) ∧ decode 0x00010801#32 = .error (.reservedBits 1)

/-- No bit of a command word is dropped: decoding the word of a well-formed command gives it back, with every
operand an assembler accepts (R48). -/
def Obligations.DecodeUndoesEncode : Prop :=
  ∀ i : Instr, i.wf = true → decode (encode i) = .ok i

/-- A word that decodes is the word of its command, and BITOFF and WIDTH are its bits 10:8 and 21:16, zero
extended (R45). -/
def Obligations.EncodeUndoesDecode : Prop :=
  ∀ (w : Word) (i : Instr), decode w = .ok i →
    i.wf = true ∧ encode i = w ∧
    ∀ width bitoff, i = .bfx width bitoff →
      width = w.toNat / 2 ^ 16 % 64 ∧ bitoff = w.toNat / 2 ^ 8 % 8

/-- The opcode map of R44: a word selects a command exactly when `(w AND mask) = match` for its row, and the
reserved opcodes end with ERR_OPCODE. -/
def Obligations.OpcodeMapSelectsByMaskAndMatch : Prop :=
  ∀ w : Word,
    ((∃ width bitoff, decode w = .ok (.bfx width bitoff)) ↔ w &&& 0xFFC0F8FF#32 = 0x00000001#32) ∧
    (decode w = .ok .adtsFind ↔ w &&& 0xFFFFFFFF#32 = 0x00000002#32) ∧
    (decode w = .ok .rtpDec ↔ w &&& 0xFFFFFFFF#32 = 0x00000003#32) ∧
    (decode w = .ok .tsScan ↔ w &&& 0xFFFFFFFF#32 = 0x00000004#32) ∧
    ((w.toNat % 16 = 0 ∨ 5 ≤ w.toNat % 16) →
      ∀ s : State, ∃ t, regWrite 0x00 w s = .next t ∧ t.code = 7)

/-- R46: exactly the words of (a), (b) and (c) are illegal. Writing one to CMD ends with ERR_OPCODE and every
result 0 whatever BUF holds, so no BUF byte is read. A format B word with WIDTH 0 or 33 to 63 is legal and ends
with ERR_RANGE. The reset value of CMD is illegal. -/
def Obligations.IllegalWordsEndInErrOpcode : Prop :=
  ∀ (s : State) (w : Word),
    ((∃ e, decode w = .error e) ↔
      (w.toNat % 16 = 0 ∨ 5 ≤ w.toNat % 16) ∨
      (w.toNat % 16 = 1 ∧ w &&& 0xFFC0F8F0#32 ≠ 0#32) ∨
      ((w.toNat % 16 = 2 ∨ w.toNat % 16 = 3 ∨ w.toNat % 16 = 4) ∧ w &&& 0xFFFFFFF0#32 ≠ 0#32)) ∧
    ((∃ e, decode w = .error e) →
      regWrite 0x00 w s =
        .next { s with cmd := w, status := BitVec.ofNat 32 (w.toNat % 16 * 16 + 7), res := noResults }) ∧
    (∀ width bitoff, (width = 0 ∨ (33 ≤ width ∧ width ≤ 63)) → bitoff ≤ 7 →
      decode (encode (.bfx width bitoff)) = .ok (.bfx width bitoff) ∧
      regWrite 0x00 (encode (.bfx width bitoff)) s =
        .next { s with cmd := encode (.bfx width bitoff), status := 0x16#32, res := noResults }) ∧
    (∃ e, decode (State.reset.cmd) = .error e)

/-! ### A step -/

/-- A step whose next host transaction writes CMD sets CMD and runs exactly the command the word decodes to, on
the state with that transaction taken; so does a step on a state prepared by `withFetchWord`, and the command
statement of R49 writes the command's own word. With nothing to come a step changes nothing (R97). -/
def Obligations.StepRunsTheDecodedCommand : Prop :=
  (∀ (s : State) (d : WordSource) (rest : List HostEvent) (i : Instr),
    s.host = .regWrite 0x00 d :: rest → decode (d.value s) = .ok i →
      step s = exec i { s with host := rest, cmd := d.value s }) ∧
  (∀ (s : State) (nbits w : Nat) (i : Instr),
    decodeTableWord nbits w = some i →
      step (s.withFetchWord nbits w) = exec i { s with cmd := commandWord nbits w }) ∧
  (∀ (s : State) (rest : List HostEvent) (i : Instr),
    s.host = (HostStmt.command i).expand ++ rest → decode (encode i) = .ok i →
      step s = exec i { s with host := rest, cmd := encode i }) ∧
  (∀ s : State, s.host = [] → step s = .next s)

/-! ### Registers (10_state.md) -/

/-- POS: all 32 bits are held as written, the engine never changes it, and a value above `BUF_CAP` makes the next
command, whichever it is, end with ERR_RANGE (R18). -/
def Obligations.PosIsHeldAsWritten : Prop :=
  ∀ (s : State) (v : Word),
    regWrite 0x08 v s = .next { s with pos := v } ∧
    regRead { s with pos := v } 0x08 = v ∧
    (∀ (i : Instr) (t : State), exec i s = .next t → t.pos = s.pos) ∧
    (∀ i : Instr, s.capN < v.toNat →
      ∃ t, exec i { s with pos := v } = .next t ∧ State.Ends { s with pos := v } t 6 [0, 0, 0, 0, 0, 0, 0, 0])

/-- END: all 32 bits are held as written, the engine never changes it, and every command with POS > END or
END > BUF_CAP ends with ERR_RANGE; reset makes it 0 (R19). -/
def Obligations.EndIsHeldAsWrittenAndBoundsEveryCommand : Prop :=
  ∀ (s : State) (v : Word),
    regWrite 0x0C v s = .next { s with wend := v } ∧
    regRead { s with wend := v } 0x0C = v ∧
    (∀ (i : Instr) (t : State), exec i s = .next t → t.wend = s.wend) ∧
    (∀ i : Instr, s.endN < s.posN ∨ s.capN < s.endN →
      ∃ t, exec i s = .next t ∧ s.Ends t 6 [0, 0, 0, 0, 0, 0, 0, 0]) ∧
    (∀ c : Config, (State.resetWith c).wend = 0#32)

/-- CAP reads BUF_CAP, for every BUF_CAP of R5, a write of it changes nothing, and no step changes it (R20). -/
def Obligations.CapReadsBufCapForever : Prop :=
  (∀ c : Config, c.wf → (regRead (State.resetWith c) 0x10).toNat = c.bufCap) ∧
  (∀ s : State, regRead s 0x10 = s.cap) ∧
  (∀ (s : State) (v : Word), regWrite 0x10 v s = .next s) ∧
  (∀ s t : State, step s = .next t → t.cap = s.cap)

/-- R16: a register reads whole at its offset, a write to a read-only register has no effect, a misaligned access
finds no register, and the engine writes only STATUS and RES and does not read them. -/
def Obligations.ReadOnlyRegistersIgnoreWrites : Prop :=
  ∀ (s : State) (v : Word),
    (∀ r : Reg, regRead s r.offset = s.reg r) ∧
    (∀ r : Reg, r = .status ∨ r = .cap ∨ (∃ k, r = .res k) → regWrite r.offset v s = .next s) ∧
    (∀ off, off % 4 ≠ 0 → regRead s off = 0#32 ∧ regWrite off v s = .next s) ∧
    (∀ (i : Instr) (t : State), exec i s = .next t → t = { s with status := t.status, res := t.res }) ∧
    (∀ (i : Instr) (st : Word) (rs : Vector Word 8), exec i { s with status := st, res := rs } = exec i s)

/-- Reserved offsets read 0 and ignore writes, and there is no register at or above 0x40 (R24). -/
def Obligations.ReservedOffsetsReadZero : Prop :=
  ∀ (s : State) (v : Word) (off : Nat),
    (off = 0x14 ∨ off = 0x18 ∨ off = 0x1C → regRead s off = 0#32 ∧ regWrite off v s = .next s) ∧
    (0x40 ≤ off → Reg.ofOffset off = none ∧ regRead s off = 0#32 ∧ regWrite off v s = .next s)

/-- An access the spec gives no register (misaligned, at or above 0x40, or narrower than a word) reads 0 and
writes nothing, as a step (R36, U8). The narrow access is the model's reading of U8 (log 9). -/
def Obligations.RegisterAccessOutsideTheMapDoesNothing : Prop :=
  ∀ (s : State) (rest : List HostEvent) (off : Nat) (d : WordSource), (off % 4 ≠ 0 ∨ 0x40 ≤ off) →
    (s.host = .regRead off :: rest → step s = .next { s with host := rest, rdReg := 0#32 }) ∧
    (s.host = .regWrite off d :: rest → step s = .next { s with host := rest }) ∧
    (∀ off', s.host = .regReadNarrow off' :: rest → step s = .next { s with host := rest, rdReg := 0#32 }) ∧
    (∀ off', s.host = .regWriteNarrow off' d :: rest → step s = .next { s with host := rest })

/-! ### BUF (20_memory.md) -/

/-- A host buffer write below BUF_CAP stores its byte, leaves every other byte and every register alone and issues
no command; at or above BUF_CAP it has no effect (R33). -/
def Obligations.BufWriteStoresOneByte : Prop :=
  ∀ (s : State) (rest : List HostEvent) (a : Nat) (d : ByteSource), s.host = .bufWrite a d :: rest →
    (a < s.capN → ∃ t, step s = .next t ∧ t = { s with host := rest, buf := t.buf } ∧
      t.buf.read a = some (d.value s) ∧ ∀ b, b ≠ a → t.buf.read b = s.buf.read b) ∧
    (s.capN ≤ a → step s = .next { s with host := rest })

/-- A host buffer read returns the byte last written, a free byte where there is none (for every value of it; log
4), and 0 at or above BUF_CAP, with no effect on the SFB (R34). -/
def Obligations.BufReadReturnsTheByte : Prop :=
  ∀ (s : State) (rest : List HostEvent) (a : Nat), s.host = .bufRead a :: rest →
    (∀ v, a < s.capN → s.buf.read a = some v → step s = .next { s with host := rest, rdBuf := v }) ∧
    (a < s.capN → s.buf.read a = none →
      step s = .next { s with host := rest, rdBuf := Config.freeByte s.freeCount, freeCount := s.freeCount + 1 }) ∧
    (s.capN ≤ a → step s = .next { s with host := rest, rdBuf := 0#8 })

/-- The engine never writes BUF, and over a run of any length a byte of BUF stays what it was unless a host write to
it, or a reset, is among the events of the run (R26). -/
def Obligations.BytesChangeOnlyByHostWrites : Prop :=
  (∀ (i : Instr) (s t : State), exec i s = .next t → t.buf = s.buf) ∧
  (∀ (k : Nat) (s t : State) (a : Nat), Sys2Proof.Machine.run k s = .next t →
    (∀ e ∈ s.host.take k, e ≠ .reset ∧ ∀ d, e ≠ .bufWrite a d) → t.buf.read a = s.buf.read a)

/-! ### Reset (70_reset_and_hazards.md) -/

/-- The state after reset, for every choice of the parameters (R30). -/
def Obligations.ResetStateHoldsTheResetValues : Prop :=
  ∀ c : Config, c.wf →
    (State.resetWith c).cmd = 0#32 ∧ (State.resetWith c).status = 0#32 ∧
    (State.resetWith c).code = 0 ∧ (State.resetWith c).opc = 0 ∧
    (State.resetWith c).pos = 0#32 ∧ (State.resetWith c).wend = 0#32 ∧
    (∀ k : Fin 8, (State.resetWith c).res[k] = 0#32) ∧
    (State.resetWith c).cap.toNat = c.bufCap ∧
    (∀ a, (State.resetWith c).buf.read a = none)

/-- The reset event gives every register its value of R30 and runs no command, and no other step makes
`STATUS.CODE` IDLE (R99). -/
def Obligations.ResetIsTheOnlyWayToIdle : Prop :=
  (∀ (s : State) (rest : List HostEvent), s.host = .reset :: rest →
    ∃ t, step s = .next t ∧ t.cmd = 0#32 ∧ t.status = 0#32 ∧ t.code = 0 ∧ t.pos = 0#32 ∧ t.wend = 0#32 ∧
      (∀ k : Fin 8, t.res[k] = 0#32) ∧ regRead t 0x10 = s.cap) ∧
  (∀ s t : State, step s = .next t → t.code = 0 → s.code = 0 ∨ ∃ rest, s.host = .reset :: rest)

/-! ### Outcomes (60_exceptions.md) -/

/-- After a command, STATUS holds the code in bits 3:0, the word's low four bits in 7:4 (a reserved opcode too) and
0 above; a step that neither writes CMD nor resets leaves STATUS as it was; the host reads it at offset 0x04 and
cannot write it, and reset makes it 0 (R21). -/
def Obligations.StatusHoldsCodeAndOpcode : Prop :=
  (∀ (s t : State) (w : Word), regWrite 0x00 w s = .next t →
    t.status.toNat = w.toNat % 16 * 16 + t.code ∧ t.opc = w.toNat % 16 ∧ t.status.toNat < 2 ^ 8) ∧
  (∀ s t : State, step s = .next t →
    (∀ d rest, s.host ≠ .regWrite 0x00 d :: rest) → (∀ rest, s.host ≠ .reset :: rest) →
    t.status = s.status) ∧
  (∀ (s : State) (v : Word), regRead s 0x04 = s.status ∧ regWrite 0x04 v s = .next s) ∧
  (∀ c : Config, (State.resetWith c).status = 0#32)

/-- Which code each command produces, and when it is an error (R22): no command produces IDLE or a value above 7. -/
def Obligations.StatusCodesByCommand : Prop :=
  (∀ c : Config, (State.resetWith c).code = 0) ∧
  ∀ (s t : State) (w : Word), regWrite 0x00 w s = .next t →
    1 ≤ t.code ∧ t.code ≤ 7 ∧
    (t.code = 1 → ∃ i, decode w = .ok i ∧ i ≠ .adtsFind) ∧
    (t.code = 2 ∨ t.code = 3 ∨ t.code = 4 → decode w = .ok .adtsFind) ∧
    (t.code = 5 → decode w = .ok .rtpDec) ∧
    (t.code = 6 ↔ ∃ i, decode w = .ok i ∧
      (¬ s.windowOk ∨ ∃ width bitoff, i = .bfx width bitoff ∧
        (width = 0 ∨ 32 < width ∨ 8 * s.endN < 8 * s.posN + bitoff + width))) ∧
    (t.code = 7 ↔ ∃ e, decode w = .error e)

/-- A condition writes STATUS and RES and nothing else: every other register, every byte of BUF and the host's side
stay as they were; and no command ever stops the engine from taking the next one (R85; the one stop is the model's
fault of R100). -/
def Obligations.EngineChangesOnlyStatusAndResults : Prop :=
  (∀ (i : Instr) (s t : State), exec i s = .next t →
    t.cmd = s.cmd ∧ t.pos = s.pos ∧ t.wend = s.wend ∧ t.cap = s.cap ∧ t.freq = s.freq ∧
    (∀ a, t.buf.read a = s.buf.read a) ∧ t.buf = s.buf ∧ t.host = s.host ∧ t.rdReg = s.rdReg ∧
    t.rdBuf = s.rdBuf ∧ t.freeCount = s.freeCount) ∧
  (∀ (s : State) (w : Word),
    (∃ t, regWrite 0x00 w s = .next t) ∨ ∃ a, regWrite 0x00 w s = .fault (.unwrittenByte a))

/-- There is no history of earlier results: a command answers alike whatever STATUS and RES held (R107). -/
def Obligations.ResultsDependOnNothingOlder : Prop :=
  ∀ (s : State) (w st : Word) (rs : Vector Word 8),
    regWrite 0x00 w { s with status := st, res := rs } = regWrite 0x00 w s

/-- TRUNCATED, ERR_RANGE and ERR_OPCODE leave all eight results 0, and a command writes 0 to the results it does not
define (R23). -/
def Obligations.UndefinedResultsAreZero : Prop :=
  (∀ (s t : State) (w : Word), regWrite 0x00 w s = .next t → 5 ≤ t.code → t.resN = [0, 0, 0, 0, 0, 0, 0, 0]) ∧
  (∀ (s t : State) (width bitoff : Nat), exec (.bfx width bitoff) s = .next t →
    t.resN.drop 3 = [0, 0, 0, 0, 0]) ∧
  (∀ s t : State, exec .tsScan s = .next t → t.resN.drop 4 = [0, 0, 0, 0]) ∧
  (∀ s t : State, exec .adtsFind s = .next t → t.code = 4 →
    t.resultN 1 = 0 ∧ t.resultN 2 = 0 ∧ t.resultN 3 = 0 ∧ t.resN.drop 5 = [0, 0, 0])

/-- No state crosses from one command to the next inside the engine: two states alike in POS, END, BUF_CAP,
FREQ_TABLE and the bytes of the window, and in nothing else, give the same STATUS and results for every word (R31). -/
def Obligations.ResultsDependOnlyOnTheWindow : Prop :=
  ∀ (s₁ s₂ t₁ : State) (w : Word),
    s₁.pos = s₂.pos → s₁.wend = s₂.wend → s₁.cap = s₂.cap → s₁.freq = s₂.freq →
    (∀ a, s₁.posN ≤ a → a < s₁.endN → s₁.buf.read a = s₂.buf.read a) →
    regWrite 0x00 w s₁ = .next t₁ →
    ∃ t₂, regWrite 0x00 w s₂ = .next t₂ ∧ t₂.status = t₁.status ∧ t₂.res = t₁.res

/-- Reset leaves every byte unspecified, and a command faults exactly when a byte of its read footprint has not been
written since: the whole window for ADTS.FIND, RTP.DEC and TS.SCAN, the bytes of the field for BFX, none when the
window, the width or the field's end is out of range or the word is illegal (R100). -/
def Obligations.CommandsFaultExactlyOnUnwrittenFootprint : Prop :=
  (∀ (s : State) (a : Nat), (applyReset s).buf.read a = none) ∧
  (∀ (s : State) (i : Instr), i = .adtsFind ∨ i = .rtpDec ∨ i = .tsScan →
    ((∃ f, exec i s = .fault f) ↔
      s.windowOk ∧ ∃ a, s.posN ≤ a ∧ a < s.endN ∧ s.buf.read a = none)) ∧
  (∀ (s : State) (width bitoff : Nat),
    ((∃ f, exec (.bfx width bitoff) s = .fault f) ↔
      s.windowOk ∧ 1 ≤ width ∧ width ≤ 32 ∧ 8 * s.posN + bitoff + width ≤ 8 * s.endN ∧
        ∃ a, s.posN ≤ a ∧ a ≤ (8 * s.posN + bitoff + width - 1) / 8 ∧ s.buf.read a = none)) ∧
  (∀ (s : State) (w : Word) (e : Illegal), decode w = .error e → ∀ f, regWrite 0x00 w s ≠ .fault f)

/-- A CMD write is repeated with the same results when POS, END and the window are unchanged (R37): the same word
written again leaves the state of the first write. -/
def Obligations.RepeatedCommandGivesTheSameState : Prop :=
  ∀ (s t : State) (w : Word), regWrite 0x00 w s = .next t → regWrite 0x00 w t = .next t

/-- The position a command reports for the host's next start (NEXT_BYTE of BFX, R50, R52; NEXT_POS of ADTS.FIND, R61 to
R63; PAYLOAD_OFF of RTP.DEC, R71, R76; NEXT of TS.SCAN, R79) lies in the window, so a host that writes it to POS (R102,
R106) keeps a legal window; after FOUND it is at least 7 bytes on (R60, R62), so the host makes progress. -/
def Obligations.ReportedPositionKeepsTheWindow : Prop :=
  ∀ (s t : State) (i : Instr), s.capN ≤ 65536 → exec i s = .next t → 1 ≤ t.code → t.code ≤ 4 →
    (∀ p, p = (match i with | .bfx _ _ => t.resultN 1 | _ => t.resultN 0) →
      s.posN ≤ p ∧ p ≤ s.endN ∧ { t with pos := BitVec.ofNat 32 p }.windowOk) ∧
    (t.code = 2 → s.posN + 7 ≤ t.resultN 0)

/-! ### The bit-field decoder (40_bitfield.md) -/

/-- BFX whole (R50): the field's value, the byte and the bit just after it, and every error outcome. -/
def Obligations.BfxExtractsTheField : Prop :=
  (∀ (s : State) (width bitoff : Nat), s.cmd = encode (.bfx width bitoff) → width ≤ 63 → bitoff ≤ 7 →
    s.capN ≤ 65536 →
    ((s.windowOk ∧ 1 ≤ width ∧ width ≤ 32 ∧ 8 * s.posN + bitoff + width ≤ 8 * s.endN ∧
        s.written s.posN ((8 * s.posN + bitoff + width - 1) / 8 + 1)) →
      ∃ t, exec (.bfx width bitoff) s = .next t ∧ t.status = 0x11#32 ∧
        s.Ends t 1 [field s (8 * s.posN + bitoff) width, (8 * s.posN + bitoff + width) / 8,
          (8 * s.posN + bitoff + width) % 8, 0, 0, 0, 0, 0] ∧
        t.resultN 0 < 2 ^ width) ∧
    ((¬ s.windowOk ∨ width = 0 ∨ 32 < width ∨ 8 * s.endN < 8 * s.posN + bitoff + width) →
      ∃ t, exec (.bfx width bitoff) s = .next t ∧ t.status = 0x16#32 ∧
        s.Ends t 6 [0, 0, 0, 0, 0, 0, 0, 0])) ∧
  (∀ (s : State) (w : Word), w.toNat % 16 = 1 → w &&& 0xFFC0F8F0#32 ≠ 0#32 →
    ∃ t, regWrite 0x00 w s = .next t ∧ State.Ends { s with cmd := w } t 7 [0, 0, 0, 0, 0, 0, 0, 0])

/-- A field is a slice of the big-endian bytes it spans: `v = B[8n - 1 - O : 8n - O - W]`; stream bit q is its most
significant bit and stream bit q + W - 1 its least, and bits outside the field do not matter (R53). -/
def Obligations.FieldIsASliceOfBigEndianBytes : Prop :=
  ∀ (s : State) (p o w n : Nat), o ≤ 7 → 1 ≤ w → n = (8 * p + o + w - 1) / 8 - p + 1 →
    field s (8 * p + o) w = slice (s.bigEndian p n) (8 * n - 1 - o) (8 * n - o - w) ∧
    field s (8 * p + o) w / 2 ^ (w - 1) = bitAt s (8 * p + o) ∧
    field s (8 * p + o) w % 2 = bitAt s (8 * p + o + w - 1) ∧
    ∀ s' : State, (∀ q, 8 * p + o ≤ q → q < 8 * p + o + w → bitAt s' q = bitAt s q) →
      field s' (8 * p + o) w = field s (8 * p + o) w

/-- A sequential read continues where the last one ended: two adjacent fields joined are the field of both (R50). -/
def Obligations.AdjacentFieldsJoin : Prop :=
  ∀ (s : State) (q w₁ w₂ : Nat), field s q (w₁ + w₂) = field s q w₁ * 2 ^ w₂ + field s (q + w₁) w₂

/-! ### The ADTS frame synchronizer (41_adts.md) -/

/-- The candidate test is "stream bits 0..11 at p equal 0xFFF": byte p is 0xFF and the top nibble of byte p + 1 is
0xF; the low nibble of byte p + 1 has no part in it (R57). -/
def Obligations.CandidateIsTheTwelveBitSyncWord : Prop :=
  ∀ (s : State) (p : Nat),
    (isCandidate s p = true ↔ s.byte p = 0xFF ∧ s.byte (p + 1) / 16 = 0xF) ∧
    (isCandidate s p = true ↔ field s (8 * p) 12 = 0xFFF)

/-- The frame length: two bits of byte p + 3, byte p + 4, three bits of byte p + 5; 0 to 8191 (R59). -/
def Obligations.FrameLengthSpansThreeBytes : Prop :=
  ∀ (s : State) (p : Nat),
    frameLength s p = field s (8 * p + 30) 13 ∧
    frameLength s p = (s.byte (p + 3) &&& 0x03) * 2048 + s.byte (p + 4) * 8 + s.byte (p + 5) / 32 ∧
    frameLength s p ≤ 8191

/-- ADTS.FIND ends with FOUND at the first frame start of the window when the frame ends inside it (R62). -/
def Obligations.AdtsFindReportsAFrame : Prop :=
  ∀ (s : State) (p : Nat), s.Ready → s.posN ≤ p → p + 7 ≤ s.endN → s.frameAt p →
    (∀ r, s.posN ≤ r → r < p → ¬ s.frameAt r) → s.lengthAt p ≤ s.endN - p →
    ∃ t, exec .adtsFind s = .next t ∧
      s.Ends t 2 [p + s.lengthAt p, p, s.lengthAt p, s.lengthAt p, p - s.posN, hdrA s p, hdrB s p, freqHz s p]

/-- ADTS.FIND ends with NEED_MORE at the first frame start of the window when the frame does not end inside it, and
does not advance past it (R61). -/
def Obligations.AdtsFindNeedsMore : Prop :=
  ∀ (s : State) (p : Nat), s.Ready → s.posN ≤ p → p + 7 ≤ s.endN → s.frameAt p →
    (∀ r, s.posN ≤ r → r < p → ¬ s.frameAt r) → s.endN - p < s.lengthAt p →
    ∃ t, exec .adtsFind s = .next t ∧
      s.Ends t 3 [p, p, s.lengthAt p, 0, p - s.posN, hdrA s p, hdrB s p, freqHz s p]

/-- ADTS.FIND ends with NO_SYNC at `max(POS, END - 6)` when no position with 7 bytes left starts a frame; at most 6
bytes are left from there (R63). -/
def Obligations.AdtsFindNoSync : Prop :=
  ∀ s : State, s.Ready → (∀ r, s.posN ≤ r → r + 7 ≤ s.endN → ¬ s.frameAt r) →
    s.endN - max s.posN (s.endN - 6) ≤ 6 ∧
    ∃ t, exec .adtsFind s = .next t ∧
      s.Ends t 4 [max s.posN (s.endN - 6), 0, 0, 0, max s.posN (s.endN - 6) - s.posN, 0, 0, 0]

/-- Whatever ADTS.FIND answers on a legal window is the truth about the first frame start in it: it reports none only
where there is none, and otherwise the first, with its length, the bytes skipped and where to go on (R58 to R63). -/
def Obligations.AdtsFindAnswersTheFirstFrame : Prop :=
  ∀ s t : State, s.capN ≤ 65536 → s.windowOk → exec .adtsFind s = .next t →
    (t.code = 4 ∧ ∀ r, s.posN ≤ r → r + 7 ≤ s.endN → ¬ s.frameAt r) ∨
    (s.posN ≤ t.resultN 1 ∧ t.resultN 1 + 7 ≤ s.endN ∧ s.frameAt (t.resultN 1) ∧
      (∀ r, s.posN ≤ r → r < t.resultN 1 → ¬ s.frameAt r) ∧
      t.resultN 2 = s.lengthAt (t.resultN 1) ∧ t.resultN 1 = s.posN + t.resultN 4 ∧
      ((t.code = 2 ∧ t.resultN 1 + t.resultN 2 ≤ s.endN ∧ t.resultN 3 = t.resultN 2 ∧
          t.resultN 0 = s.posN + t.resultN 4 + t.resultN 3) ∨
       (t.code = 3 ∧ s.endN < t.resultN 1 + t.resultN 2 ∧ t.resultN 3 = 0 ∧ t.resultN 0 = t.resultN 1)))

/-- Where POS starts no frame (no candidate, or one with a length below 7) the scan goes on one byte further and no
more: the command answers as from POS + 1, with one more byte skipped (R60, R68). -/
def Obligations.AdtsFindAdvancesOneByte : Prop :=
  ∀ s : State, s.Ready → s.posN + 7 ≤ s.endN → ¬ s.frameAt s.posN →
    ∃ t t', exec .adtsFind s = .next t ∧ exec .adtsFind { s with pos := s.pos + 1#32 } = .next t' ∧
      t.status = t'.status ∧ t.resultN 4 = t'.resultN 4 + 1 ∧
      ∀ k : Fin 8, k ≠ 4 → t.res[k] = t'.res[k]

/-- The header fields ADTS.FIND reports with FOUND or NEED_MORE, each from its bits of the header bytes (R56, R64). -/
def Obligations.AdtsHeaderFields : Prop :=
  ∀ s t : State, s.capN ≤ 65536 → exec .adtsFind s = .next t → (t.code = 2 ∨ t.code = 3) →
    ∀ p a b, p = t.resultN 1 → a = t.resultN 5 → b = t.resultN 6 →
      a = field s (8 * p + 12) 18 ∧ b = field s (8 * p + 43) 13 ∧
      slice a 17 17 = slice (s.byte (p + 1)) 3 3 ∧
      slice a 16 15 = slice (s.byte (p + 1)) 2 1 ∧
      slice a 14 14 = slice (s.byte (p + 1)) 0 0 ∧
      slice a 13 12 = slice (s.byte (p + 2)) 7 6 ∧
      slice a 11 8 = slice (s.byte (p + 2)) 5 2 ∧
      slice a 7 7 = slice (s.byte (p + 2)) 1 1 ∧
      slice a 6 4 = slice (s.byte (p + 2)) 0 0 * 2 ^ 2 + slice (s.byte (p + 3)) 7 6 ∧
      slice a 3 3 = slice (s.byte (p + 3)) 5 5 ∧
      slice a 2 2 = slice (s.byte (p + 3)) 4 4 ∧
      slice a 1 1 = slice (s.byte (p + 3)) 3 3 ∧
      slice a 0 0 = slice (s.byte (p + 3)) 2 2 ∧
      slice a 31 18 = 0 ∧
      slice b 12 2 = slice (s.byte (p + 5)) 4 0 * 2 ^ 6 + slice (s.byte (p + 6)) 7 2 ∧
      slice b 1 0 = slice (s.byte (p + 6)) 1 0 ∧
      slice b 31 13 = 0 ∧
      t.resultN 2 = s.lengthAt p

/-- The profile class is the 2-bit profile field itself: 0 Main, 1 LC, 2 SSR, 3 Unknown (R65). -/
def Obligations.AdtsProfileClass : Prop :=
  ∀ s t : State, s.capN ≤ 65536 → exec .adtsFind s = .next t → (t.code = 2 ∨ t.code = 3) →
    ∀ f, f = s.byte (t.resultN 1 + 2) / 64 →
      slice (t.resultN 5) 13 12 = f ∧
      profileOf (t.resultN 5) =
        (if f = 0 then Profile.main else if f = 1 then .lc else if f = 2 then .ssr else .unknown)

/-- FREQ_HZ is FREQ_TABLE at the sampling frequency index, `HDR_A[11:8]`, and 0 for 12 to 15; entries 0 and 11 are
96000 and 8000 and entries 1 to 10 the parameter, whatever it holds (R66). -/
def Obligations.AdtsFrequency : Prop :=
  ∀ s t : State, s.capN ≤ 65536 → exec .adtsFind s = .next t → (t.code = 2 ∨ t.code = 3) →
    ∀ k, k = slice (t.resultN 5) 11 8 →
      k = s.byte (t.resultN 1 + 2) / 4 % 16 ∧
      (k = 0 → t.resultN 7 = 96000) ∧
      (∀ j : Fin 10, k = j.val + 1 → t.res[7] = s.freq[j]) ∧
      (k = 11 → t.resultN 7 = 8000) ∧
      (12 ≤ k → t.resultN 7 = 0)

/-- A refill resolves NEED_MORE: when the host keeps the header's bytes (moved or in place), appends until the
reported frame is whole, and issues ADTS.FIND again from it, the same frame is found, with the same length and
header results and nothing skipped (R61, R62, R103, R104). -/
def Obligations.RefillCompletesTheFrame : Prop :=
  ∀ s t s' : State, s.capN ≤ 65536 → exec .adtsFind s = .next t → t.code = 3 →
    s'.Ready → s'.freq = s.freq →
    s'.posN + t.resultN 2 ≤ s'.endN →
    (∀ k, k < 7 → s'.byte (s'.posN + k) = s.byte (t.resultN 1 + k)) →
    ∃ t', exec .adtsFind s' = .next t' ∧
      s'.Ends t' 2 [s'.posN + t.resultN 2, s'.posN, t.resultN 2, t.resultN 2, 0,
        t.resultN 5, t.resultN 6, t.resultN 7]

/-! ### The RTP header decoder (42_rtp.md) -/

/-- RTP.DEC of a datagram of at least 12 bytes: where the payload is, the first two bytes, and the big-endian fields
(R74, R76). -/
def Obligations.RtpDecodesTheHeader : Prop :=
  ∀ s : State, s.Ready → s.posN + 12 ≤ s.endN →
    ∃ t, exec .rtpDec s = .next t ∧
      s.Ends t 1
        [s.posN + 12, s.endN - s.posN - 12, s.byte s.posN * 2 ^ 8 + s.byte (s.posN + 1),
          s.byte (s.posN + 2) * 2 ^ 8 + s.byte (s.posN + 3),
          s.byte (s.posN + 4) * 2 ^ 24 + s.byte (s.posN + 5) * 2 ^ 16 + s.byte (s.posN + 6) * 2 ^ 8
            + s.byte (s.posN + 7),
          s.byte (s.posN + 8) * 2 ^ 24 + s.byte (s.posN + 9) * 2 ^ 16 + s.byte (s.posN + 10) * 2 ^ 8
            + s.byte (s.posN + 11),
          (payloadClass (s.byte (s.posN + 1) % 128)).code, s.byte (s.posN + 1) % 128]

/-- RTP.DEC of a datagram of fewer than 12 bytes ends with TRUNCATED and every result 0 (R73). -/
def Obligations.RtpTruncatedHeader : Prop :=
  ∀ s : State, s.Ready → s.endN < s.posN + 12 →
    ∃ t, exec .rtpDec s = .next t ∧ s.Ends t 5 [0, 0, 0, 0, 0, 0, 0, 0]

/-- The fields of HDR01, each at its bits of the datagram's bytes 0 and 1 (R72). -/
def Obligations.RtpHeaderFields : Prop :=
  ∀ s t : State, s.capN ≤ 65536 → exec .rtpDec s = .next t → t.code = 1 →
    ∀ h p, h = t.resultN 2 → p = s.posN →
      slice h 15 14 = slice (s.byte p) 7 6 ∧
      slice h 13 13 = slice (s.byte p) 5 5 ∧
      slice h 12 12 = slice (s.byte p) 4 4 ∧
      slice h 11 8 = slice (s.byte p) 3 0 ∧
      slice h 7 7 = slice (s.byte (p + 1)) 7 7 ∧
      slice h 6 0 = slice (s.byte (p + 1)) 6 0 ∧
      slice h 31 16 = 0 ∧
      t.resultN 3 = s.bigEndian (p + 2) 2 ∧
      t.resultN 4 = s.bigEndian (p + 4) 4 ∧
      t.resultN 5 = s.bigEndian (p + 8) 4

/-- PT_CLASS from the payload type that RTP.DEC reports in RES7 (R75). -/
def Obligations.RtpPayloadClass : Prop :=
  ∀ s t : State, exec .rtpDec s = .next t → t.code = 1 →
    ∀ pt, pt = t.resultN 7 →
      pt < 128 ∧
      (pt ≤ 18 → t.resultN 6 = 1) ∧ (pt = 31 → t.resultN 6 = 2) ∧ (pt = 32 → t.resultN 6 = 3) ∧
      (pt = 33 → t.resultN 6 = 4) ∧ (pt = 34 → t.resultN 6 = 5) ∧ (pt = 96 → t.resultN 6 = 6) ∧
      ((19 ≤ pt ∧ pt ≤ 30) ∨ (35 ≤ pt ∧ pt ≤ 95) ∨ 97 ≤ pt → t.resultN 6 = 0) ∧
      (t.resultN 6 = 4 ↔ pt = 33)

/-! ### The MPEG-TS validator (43_mpegts.md) -/

/-- Whatever TS.SCAN answers on a legal window is the truth about its strides: COUNT contiguous full strides that begin
with 0x47, NEXT just after them, the rest discarded, and STOP says why the walk ended (R80 to R82). -/
def Obligations.TsScanCountsTheLeadingStrides : Prop :=
  ∀ s t : State, s.capN ≤ 65536 → s.windowOk → exec .tsScan s = .next t →
    t.code = 1 ∧
    t.resultN 0 = s.posN + 188 * t.resultN 1 ∧ t.resultN 0 + t.resultN 3 = s.endN ∧
    (∀ k, k < t.resultN 1 → s.byte (s.posN + 188 * k) = 0x47) ∧
    ((t.resultN 2 = 0 ∧ t.resultN 3 < 188) ∨
     (t.resultN 2 = 1 ∧ 188 ≤ t.resultN 3 ∧ s.byte (t.resultN 0) ≠ 0x47))

/-- TS.SCAN stops at the first full stride that does not begin with 0x47, whatever later strides hold (R82). -/
def Obligations.TsScanStopsAtTheFirstMismatch : Prop :=
  ∀ (s : State) (c : Nat), s.Ready → s.posN + 188 * c + 188 ≤ s.endN →
    (∀ k, k < c → s.byte (s.posN + 188 * k) = 0x47) → s.byte (s.posN + 188 * c) ≠ 0x47 →
    ∃ t, exec .tsScan s = .next t ∧
      s.Ends t 1 [s.posN + 188 * c, c, 1, s.endN - (s.posN + 188 * c), 0, 0, 0, 0]

/-- TS.SCAN discards a remainder of fewer than 188 bytes without looking at it (R81). -/
def Obligations.TsScanDiscardsTheRemainder : Prop :=
  ∀ (s : State) (c : Nat), s.Ready → s.posN + 188 * c ≤ s.endN → s.endN < s.posN + 188 * c + 188 →
    (∀ k, k < c → s.byte (s.posN + 188 * k) = 0x47) →
    ∃ t, exec .tsScan s = .next t ∧
      s.Ends t 1 [s.posN + 188 * c, c, 0, s.endN - (s.posN + 188 * c), 0, 0, 0, 0]

/-! ### Host programs (30_encoding.md R49) -/

/-- `MOV <reg>, <src>` writes to a register the value just read from another: POS or END takes it, and CMD issues it
as a command. -/
def Obligations.HostMovCopiesARegister : Prop :=
  ∀ (s : State) (r src : Reg) (rest : List HostEvent), s.host = (HostStmt.mov r src).expand ++ rest →
    Sys2Proof.Machine.run 2 s = regWrite r.offset (s.reg src) { s with host := rest, rdReg := s.reg src } ∧
    (r = .pos → Sys2Proof.Machine.run 2 s
      = .next { s with host := rest, rdReg := s.reg src, pos := s.reg src }) ∧
    (r = .wend → Sys2Proof.Machine.run 2 s
      = .next { s with host := rest, rdReg := s.reg src, wend := s.reg src })

/-- `WB <addr>: <bytes>` stores its bytes in ascending order and nothing else. -/
def Obligations.HostWbStoresItsBytes : Prop :=
  ∀ (s : State) (a : Nat) (bs : List Byte) (rest : List HostEvent),
    s.host = (HostStmt.wb a bs).expand ++ rest → a + bs.length ≤ s.capN →
    ∃ t, Sys2Proof.Machine.run bs.length s = .next t ∧ t = { s with host := rest, buf := t.buf } ∧
      (∀ k (h : k < bs.length), t.buf.read (a + k) = some bs[k]) ∧
      (∀ b, b < a ∨ a + bs.length ≤ b → t.buf.read b = s.buf.read b)

/-- `CP <dst>, <src>, <n>` is "a correct move when `dst <= src`": every byte arrives as it was before, overlap
included, and no byte outside the destination changes. -/
def Obligations.HostCpMovesBytes : Prop :=
  ∀ (s : State) (dst src n : Nat) (rest : List HostEvent),
    s.host = (HostStmt.cp dst src n).expand ++ rest → dst ≤ src → src + n ≤ s.capN →
    s.written src (src + n) →
    ∃ t, Sys2Proof.Machine.run (2 * n) s = .next t ∧ t = { s with host := rest, buf := t.buf, rdBuf := t.rdBuf } ∧
      (∀ k, k < n → t.buf.read (dst + k) = s.buf.read (src + k)) ∧
      (∀ b, b < dst ∨ dst + n ≤ b → t.buf.read b = s.buf.read b)

/-! ### The whole machine -/

/-- The invariant holds after reset, for every choice of the parameters. -/
def Obligations.InvariantHoldsAtReset : Prop :=
  ∀ c : Config, c.wf → (State.resetWith c).Inv

/-- Every step keeps the invariant: BUF stays canonical and inside BUF_CAP, BUF_CAP stays in its range, STATUS is CODE
and `CMD[3:0]` and nothing else, the code is one of R22 that goes with the command, and error outcomes leave every
result 0. -/
def Obligations.StepKeepsTheInvariant : Prop :=
  ∀ s t : State, s.Inv → step s = .next t → t.Inv
end

