-- ==== Sys2Proof/Laws/Field.lean ====
section
/-! SUPPORT. The laws of stream bits and fields (R11, R12): a field one bit longer, joined fields, bounds, and
the bytes a field depends on. -/

namespace Sys2Proof.Machine

/-- A field of a value is below its width's bound (R10). -/
theorem slice_lt (v hi lo : Nat) : slice v hi lo < 2 ^ (hi - lo + 1) :=
  Nat.mod_lt _ (Nat.two_pow_pos _)

/-- `v[i]` is bit `i` of `v` (R10). -/
theorem slice_self (v i : Nat) : slice v i i = (v.testBit i).toNat := by
  simp [slice, Nat.testBit_eq_decide_div_mod_eq]
  rcases Nat.mod_two_eq_zero_or_one (v / 2 ^ i) with h | h <;> simp [h]

/-- A byte is below 256 (R25). -/
theorem byte_lt (s : State) (a : Nat) : s.byte a < 256 := (memRead s a).isLt

/-- The stream bit at `t` is bit `7 - (t mod 8)` of byte `t div 8` (R11). -/
theorem bitAt_eq (s : State) (t : Nat) : bitAt s t = s.byte (t / 8) / 2 ^ (7 - t % 8) % 2 := by
  simp [bitAt, slice, State.byte]

theorem bitAt_le_one (s : State) (t : Nat) : bitAt s t ≤ 1 := by
  rw [bitAt_eq]; omega

/-- Bit `k` (from the left) of the byte at `a`, in stream positions (R11). -/
theorem bitAt_byte (s : State) (a k : Nat) (hk : k < 8) :
    bitAt s (8 * a + k) = s.byte a / 2 ^ (7 - k) % 2 := by
  rw [bitAt_eq, show (8 * a + k) / 8 = a by omega, show (8 * a + k) % 8 = k by omega]

@[simp] theorem field_zero (s : State) (q : Nat) : field s q 0 = 0 := rfl

/-- A field one bit longer: the new bit is its least significant (R12). -/
theorem field_succ (s : State) (q w : Nat) : field s q (w + 1) = field s q w * 2 + bitAt s (q + w) := by
  unfold field
  rw [List.range_succ, List.map_append, List.sum_append]
  simp only [List.map_cons, List.map_nil, List.sum_cons, List.sum_nil, Nat.add_sub_cancel, Nat.sub_self,
    Nat.pow_zero, Nat.mul_one, Nat.add_zero]
  congr 1
  rw [← List.sum_map_mul_right]
  refine congrArg List.sum (List.map_congr_left fun k hk => ?_)
  rw [List.mem_range] at hk
  rw [Nat.mul_assoc, ← Nat.pow_succ, show (w - 1 - k).succ = w - k by omega]

/-- "a w-bit field lies in `0 .. 2^w - 1`" (R55). -/
theorem field_lt (s : State) (q w : Nat) : field s q w < 2 ^ w := by
  induction w with
  | zero => simp
  | succ w ih =>
    have := bitAt_le_one s (q + w)
    rw [field_succ, Nat.pow_succ]; omega

/-- Fields are equal when their bits are (R12). -/
theorem field_congr {s t : State} {q r w : Nat} (h : ∀ k < w, bitAt s (q + k) = bitAt t (r + k)) :
    field s q w = field t r w := by
  induction w with
  | zero => rfl
  | succ w ih => rw [field_succ, field_succ, ih fun k hk => h k (by omega), h w (by omega)]

/-- The eight stream bits of a byte are the byte (R11, R35). -/
theorem field_byte (s : State) (a : Nat) : field s (8 * a) 8 = s.byte a := by
  have h0 := bitAt_byte s a 0 (by omega)
  have h1 := bitAt_byte s a 1 (by omega)
  have h2 := bitAt_byte s a 2 (by omega)
  have h3 := bitAt_byte s a 3 (by omega)
  have h4 := bitAt_byte s a 4 (by omega)
  have h5 := bitAt_byte s a 5 (by omega)
  have h6 := bitAt_byte s a 6 (by omega)
  have h7 := bitAt_byte s a 7 (by omega)
  have := byte_lt s a
  simp only [field_succ, field_zero, h0, h1, h2, h3, h4, h5, h6, h7]
  omega

@[simp] theorem bigEndian_zero (s : State) (a : Nat) : s.bigEndian a 0 = 0 := rfl

theorem bigEndian_succ (s : State) (a n : Nat) :
    s.bigEndian a (n + 1) = s.bigEndian a n * 2 ^ 8 + s.byte (a + n) := rfl

theorem bigEndian_lt (s : State) (a n : Nat) : s.bigEndian a n < 2 ^ (8 * n) := by
  induction n with
  | zero => simp
  | succ n ih =>
    have := byte_lt s (a + n)
    rw [bigEndian_succ, Nat.mul_succ, Nat.pow_add]; omega

/-- Reading a byte depends on that byte of BUF alone. -/
theorem byte_congr {s t : State} {a : Nat} (h : s.buf.read a = t.buf.read a) : s.byte a = t.byte a := by
  simp [State.byte, memRead, h]

/-- A field depends only on the bytes it spans (R53). -/
theorem field_congr_bytes {s t : State} {q w : Nat}
    (h : ∀ a, q / 8 ≤ a → a ≤ (q + w - 1) / 8 → s.byte a = t.byte a) : field s q w = field t q w := by
  refine field_congr fun k hk => ?_
  rw [bitAt_eq, bitAt_eq, h _ (Nat.div_le_div_right (by omega)) (Nat.div_le_div_right (by omega))]

/-- The update of anything but BUF leaves every byte as it was. -/
theorem byte_of_buf_eq {s t : State} (h : s.buf = t.buf) (a : Nat) : s.byte a = t.byte a :=
  byte_congr (by rw [h])

end Sys2Proof.Machine
end

