-- ==== Sys2Proof/Laws/State.lean ====
section
/-! SUPPORT. What each named update leaves in each field of State, all true by unfolding. -/

namespace Sys2Proof.Machine

variable (s : State) (c : StatusCode) (rs : List Nat)

/-! ### `complete` writes STATUS and RES and nothing else (R12, R85) -/

@[simp] theorem complete_cmd : (complete c rs s).cmd = s.cmd := rfl
@[simp] theorem complete_status :
    (complete c rs s).status = statusWord (opcodeOf s.cmd) c.code := rfl
@[simp] theorem complete_pos : (complete c rs s).pos = s.pos := rfl
@[simp] theorem complete_wend : (complete c rs s).wend = s.wend := rfl
@[simp] theorem complete_cap : (complete c rs s).cap = s.cap := rfl
@[simp] theorem complete_res : (complete c rs s).res = resultBank rs := rfl
@[simp] theorem complete_buf : (complete c rs s).buf = s.buf := rfl
@[simp] theorem complete_freq : (complete c rs s).freq = s.freq := rfl
@[simp] theorem complete_host : (complete c rs s).host = s.host := rfl
@[simp] theorem complete_rdReg : (complete c rs s).rdReg = s.rdReg := rfl
@[simp] theorem complete_rdBuf : (complete c rs s).rdBuf = s.rdBuf := rfl
@[simp] theorem complete_freeCount : (complete c rs s).freeCount = s.freeCount := rfl

/-- `raise` is `complete` without a result (R12). -/
theorem raise_eq_complete : raise c s = complete c [] s := rfl

@[simp] theorem raise_cmd : (raise c s).cmd = s.cmd := rfl
@[simp] theorem raise_status : (raise c s).status = statusWord (opcodeOf s.cmd) c.code := rfl
@[simp] theorem raise_pos : (raise c s).pos = s.pos := rfl
@[simp] theorem raise_wend : (raise c s).wend = s.wend := rfl
@[simp] theorem raise_cap : (raise c s).cap = s.cap := rfl
@[simp] theorem raise_res : (raise c s).res = noResults := rfl
@[simp] theorem raise_buf : (raise c s).buf = s.buf := rfl
@[simp] theorem raise_freq : (raise c s).freq = s.freq := rfl
@[simp] theorem raise_host : (raise c s).host = s.host := rfl
@[simp] theorem raise_rdReg : (raise c s).rdReg = s.rdReg := rfl
@[simp] theorem raise_rdBuf : (raise c s).rdBuf = s.rdBuf := rfl
@[simp] theorem raise_freeCount : (raise c s).freeCount = s.freeCount := rfl

/-! ### Reset (R30, R99) -/

@[simp] theorem applyReset_cmd : (applyReset s).cmd = 0#32 := rfl
@[simp] theorem applyReset_status : (applyReset s).status = 0#32 := rfl
@[simp] theorem applyReset_pos : (applyReset s).pos = 0#32 := rfl
@[simp] theorem applyReset_wend : (applyReset s).wend = 0#32 := rfl
@[simp] theorem applyReset_cap : (applyReset s).cap = s.cap := rfl
@[simp] theorem applyReset_res : (applyReset s).res = noResults := rfl
@[simp] theorem applyReset_buf : (applyReset s).buf = [] := rfl
@[simp] theorem applyReset_freq : (applyReset s).freq = s.freq := rfl
@[simp] theorem applyReset_host : (applyReset s).host = s.host := rfl
@[simp] theorem applyReset_rdReg : (applyReset s).rdReg = s.rdReg := rfl
@[simp] theorem applyReset_rdBuf : (applyReset s).rdBuf = s.rdBuf := rfl
@[simp] theorem applyReset_freeCount : (applyReset s).freeCount = s.freeCount := rfl

/-! ### The state after reset (R30) -/

variable (k : Config)

@[simp] theorem resetWith_cmd : (State.resetWith k).cmd = 0#32 := rfl
@[simp] theorem resetWith_status : (State.resetWith k).status = 0#32 := rfl
@[simp] theorem resetWith_pos : (State.resetWith k).pos = 0#32 := rfl
@[simp] theorem resetWith_wend : (State.resetWith k).wend = 0#32 := rfl
@[simp] theorem resetWith_cap : (State.resetWith k).cap = BitVec.ofNat 32 k.bufCap := rfl
@[simp] theorem resetWith_res : (State.resetWith k).res = noResults := rfl
@[simp] theorem resetWith_buf : (State.resetWith k).buf = [] := rfl
@[simp] theorem resetWith_freq : (State.resetWith k).freq = k.freq := rfl
@[simp] theorem resetWith_host : (State.resetWith k).host = [] := rfl

/-! ### A register write without its command (R16): what each offset does -/

theorem storeReg_frame (off : Nat) (v : Word) :
    storeReg off v s = { s with cmd := (storeReg off v s).cmd, pos := (storeReg off v s).pos,
                                wend := (storeReg off v s).wend } := by
  unfold storeReg; split <;> rfl

@[simp] theorem storeReg_status (off : Nat) (v : Word) : (storeReg off v s).status = s.status := by
  rw [storeReg_frame]
@[simp] theorem storeReg_cap (off : Nat) (v : Word) : (storeReg off v s).cap = s.cap := by
  rw [storeReg_frame]
@[simp] theorem storeReg_res (off : Nat) (v : Word) : (storeReg off v s).res = s.res := by
  rw [storeReg_frame]
@[simp] theorem storeReg_buf (off : Nat) (v : Word) : (storeReg off v s).buf = s.buf := by
  rw [storeReg_frame]
@[simp] theorem storeReg_freq (off : Nat) (v : Word) : (storeReg off v s).freq = s.freq := by
  rw [storeReg_frame]
@[simp] theorem storeReg_host (off : Nat) (v : Word) : (storeReg off v s).host = s.host := by
  rw [storeReg_frame]
@[simp] theorem storeReg_rdReg (off : Nat) (v : Word) : (storeReg off v s).rdReg = s.rdReg := by
  rw [storeReg_frame]
@[simp] theorem storeReg_rdBuf (off : Nat) (v : Word) : (storeReg off v s).rdBuf = s.rdBuf := by
  rw [storeReg_frame]
@[simp] theorem storeReg_freeCount (off : Nat) (v : Word) :
    (storeReg off v s).freeCount = s.freeCount := by rw [storeReg_frame]

/-! ### The buffer transactions (R33, R34) -/

theorem bufRead_frame (a : Nat) :
    bufRead a s = { s with rdBuf := (bufRead a s).rdBuf, freeCount := (bufRead a s).freeCount } := by
  unfold bufRead; split
  · split <;> rfl
  · rfl

theorem bufWrite_frame (a : Nat) (v : Byte) : bufWrite a v s = { s with buf := (bufWrite a v s).buf } := by
  unfold bufWrite; split <;> rfl

end Sys2Proof.Machine
end

