-- ==== Sys2Proof/Laws/Window.lean ====
section
/-! SUPPORT. What the shared operations of every command do: the window check (R43) and the read footprint
(R100). -/

namespace Sys2Proof.Machine

variable {s : State}

theorem withWindow_ok (h : s.windowOk) (r : Result) : withWindow s r = r := if_pos h

theorem withWindow_bad (h : ¬ s.windowOk) (r : Result) : withWindow s r = .next (raise .errRange s) :=
  if_neg h

/-- The window check ends in the rest of the command, or in ERR_RANGE. -/
theorem withWindow_cases (s : State) (r : Result) :
    (s.windowOk ∧ withWindow s r = r) ∨ (¬ s.windowOk ∧ withWindow s r = .next (raise .errRange s)) := by
  by_cases h : s.windowOk
  · exact .inl ⟨h, withWindow_ok h r⟩
  · exact .inr ⟨h, withWindow_bad h r⟩

/-- No address is found exactly when every byte of the range is written. -/
theorem firstUnwritten_none_iff (m : Memory) (a n : Nat) :
    firstUnwritten m a n = none ↔ ∀ b, a ≤ b → b < a + n → (m.read b).isSome := by
  induction n generalizing a with
  | zero => simp [firstUnwritten]; intro b _ _; omega
  | succ n ih =>
    simp only [firstUnwritten]
    split
    · rename_i h
      rw [ih]
      refine ⟨fun H b h1 h2 => ?_, fun H b h1 h2 => H b (by omega) (by omega)⟩
      rcases Nat.eq_or_lt_of_le h1 with rfl | h1
      · exact h
      · exact H b (by omega) (by omega)
    · rename_i h
      simp only [reduceCtorEq, false_iff]
      intro H
      exact h (H a (by omega) (by omega))

/-- The address found is in the range, holds no byte, and every lower one does. -/
theorem firstUnwritten_some {m : Memory} {a n b : Nat} (h : firstUnwritten m a n = some b) :
    a ≤ b ∧ b < a + n ∧ m.read b = none ∧ ∀ c, a ≤ c → c < b → (m.read c).isSome := by
  induction n generalizing a with
  | zero => simp [firstUnwritten] at h
  | succ n ih =>
    simp only [firstUnwritten] at h
    split at h
    · rename_i hs
      obtain ⟨h1, h2, h3, h4⟩ := ih h
      refine ⟨by omega, by omega, h3, fun c hc hcb => ?_⟩
      rcases Nat.eq_or_lt_of_le hc with rfl | hc
      · exact hs
      · exact h4 c hc hcb
    · rename_i hs
      cases h
      exact ⟨by omega, by omega, by simpa using hs, fun c h1 h2 => by omega⟩

/-- A footprint that is written: the rest of the command runs. -/
theorem reading_ok {a n : Nat} (h : s.written a (a + n)) (r : Result) : reading s a n r = r := by
  have : firstUnwritten s.buf a n = none := (firstUnwritten_none_iff ..).2 h
  simp [reading, this]

/-- A command that reads runs, with its footprint written, or faults at its lowest unwritten byte. -/
theorem reading_cases (s : State) (a n : Nat) (r : Result) :
    (s.written a (a + n) ∧ reading s a n r = r) ∨
      ∃ b, a ≤ b ∧ b < a + n ∧ s.buf.read b = none ∧ reading s a n r = .fault (.unwrittenByte b) := by
  cases h : firstUnwritten s.buf a n with
  | none =>
    have hw : s.written a (a + n) := (firstUnwritten_none_iff ..).1 h
    exact .inl ⟨hw, reading_ok hw r⟩
  | some b =>
    obtain ⟨h1, h2, h3, -⟩ := firstUnwritten_some h
    exact .inr ⟨b, h1, h2, h3, by simp [reading, h]⟩

theorem written_window (h : s.windowOk) :
    s.written s.posN (s.posN + (s.endN - s.posN)) ↔ s.written s.posN s.endN := by
  have := h.1
  rw [show s.posN + (s.endN - s.posN) = s.endN by omega]

/-- A ready window: a command that reads all of it runs (R100). -/
theorem State.Ready.run (h : s.Ready) (r : Result) : withWindow s (readingWindow s r) = r := by
  rw [withWindow_ok h.window, readingWindow, reading_ok ((written_window h.window).2 h.bytes)]

/-- The three ways of a command that reads its whole window (R43, R100). -/
theorem window_cases (s : State) (r : Result) :
    (¬ s.windowOk ∧ withWindow s (readingWindow s r) = .next (raise .errRange s)) ∨
    (s.windowOk ∧ s.written s.posN s.endN ∧ withWindow s (readingWindow s r) = r) ∨
    (s.windowOk ∧ ∃ b, s.posN ≤ b ∧ b < s.endN ∧ s.buf.read b = none ∧
      withWindow s (readingWindow s r) = .fault (.unwrittenByte b)) := by
  rcases withWindow_cases s (readingWindow s r) with ⟨hw, he⟩ | ⟨hw, he⟩
  · have := hw.1
    rcases reading_cases s s.posN (s.endN - s.posN) r with ⟨h1, h2⟩ | ⟨b, h1, h2, h3, h4⟩
    · exact .inr (.inl ⟨hw, (written_window hw).1 h1, he.trans h2⟩)
    · exact .inr (.inr ⟨hw, b, h1, by omega, h3, he.trans h4⟩)
  · exact .inl ⟨hw, he⟩

end Sys2Proof.Machine
end

