-- ==== Sys2Proof/Laws/Scan.lean ====
section
/-! SUPPORT. What the two scans can answer: the ADTS scan (R57 to R68) and the walk of strides (R79 to R82). -/

namespace Sys2Proof.Machine

variable {s : State}

/-! ### The scan of ADTS.FIND -/

/-- A header found is the first accepted position, with its 7 bytes in the window (R58, R68). -/
theorem scan_header {rem p q : Nat} (h : scan s rem p = .header q) :
    p ≤ q ∧ q + 7 ≤ p + rem ∧ accepts s q = true ∧ ∀ r, p ≤ r → r < q → accepts s r = false := by
  induction rem generalizing p with
  | zero => simp [scan] at h
  | succ rem ih =>
    simp only [scan] at h
    split at h
    · cases h
    · split at h
      · rename_i h7 ha
        cases h
        exact ⟨Nat.le_refl _, by omega, ha, fun r h1 h2 => by omega⟩
      · rename_i h7 ha
        obtain ⟨h1, h2, h3, h4⟩ := ih h
        refine ⟨by omega, by omega, h3, fun r hr hrq => ?_⟩
        rcases Nat.eq_or_lt_of_le hr with rfl | hr
        · simpa using ha
        · exact h4 r hr hrq

/-- No header found: no position with 7 bytes left is accepted, and the scan ends at the first position with
fewer (R63). -/
theorem scan_noSync {rem p q : Nat} (h : scan s rem p = .noSync q) :
    q = max p (p + rem - 6) ∧ ∀ r, p ≤ r → r + 7 ≤ p + rem → accepts s r = false := by
  induction rem generalizing p with
  | zero =>
    simp only [scan] at h
    cases h
    exact ⟨by omega, fun r h1 h2 => by omega⟩
  | succ rem ih =>
    simp only [scan] at h
    split at h
    · cases h
      exact ⟨by omega, fun r h1 h2 => by omega⟩
    · split at h
      · cases h
      · rename_i h7 ha
        obtain ⟨h1, h2⟩ := ih h
        refine ⟨by omega, fun r hr hr7 => ?_⟩
        rcases Nat.eq_or_lt_of_le hr with rfl | hr
        · simpa using ha
        · exact h2 r hr (by omega)

/-- The first accepted position is what the scan finds. -/
theorem scan_eq_header {rem p q : Nat} (hpq : p ≤ q) (h7 : q + 7 ≤ p + rem) (ha : accepts s q = true)
    (hno : ∀ r, p ≤ r → r < q → accepts s r = false) : scan s rem p = .header q := by
  cases h : scan s rem p with
  | noSync r => exact absurd ha (by simp [(scan_noSync h).2 q hpq h7])
  | header r =>
    obtain ⟨h1, -, h3, h4⟩ := scan_header h
    rcases Nat.lt_trichotomy r q with hlt | rfl | hgt
    · exact absurd h3 (by simp [hno r h1 hlt])
    · rfl
    · exact absurd ha (by simp [h4 q hpq hgt])

/-- With no accepted position the scan finds none. -/
theorem scan_eq_noSync {rem p : Nat} (hno : ∀ r, p ≤ r → r + 7 ≤ p + rem → accepts s r = false) :
    scan s rem p = .noSync (max p (p + rem - 6)) := by
  cases h : scan s rem p with
  | noSync r => rw [(scan_noSync h).1]
  | header r =>
    obtain ⟨h1, h2, h3, -⟩ := scan_header h
    exact absurd h3 (by simp [hno r h1 h2])

/-! ### The walk of TS.SCAN -/

/-- The walk's answer: the accepted strides are contiguous from the start and begin with 0x47, and it ends at
the window's last full stride or at the first that does not begin with 0x47 (R80 to R82). -/
theorem walk_spec (s : State) (full a c : Nat) :
    (walk s full a c).next = a + 188 * ((walk s full a c).count - c) ∧
    c ≤ (walk s full a c).count ∧
    (∀ i < (walk s full a c).count - c, memRead s (a + 188 * i) = 0x47#8) ∧
    (((walk s full a c).stop = 0 ∧ (walk s full a c).count = c + full) ∨
     ((walk s full a c).stop = 1 ∧ (walk s full a c).count < c + full ∧
        memRead s (walk s full a c).next ≠ 0x47#8)) := by
  induction full generalizing a c with
  | zero => simp [walk]
  | succ full ih =>
    simp only [walk]
    split
    · rename_i h
      simp [h]
    · rename_i h
      simp only [ne_eq, Decidable.not_not] at h
      obtain ⟨h1, h2, h3, h4⟩ := ih (a + 188) (c + 1)
      refine ⟨by omega, by omega, fun i hi => ?_, ?_⟩
      · cases i with
        | zero => simpa using h
        | succ i => rw [← h3 i (by omega)]; congr 1; omega
      · rcases h4 with ⟨h4, h5⟩ | ⟨h4, h5, h6⟩
        · exact .inl ⟨h4, by omega⟩
        · exact .inr ⟨h4, by omega, h6⟩

end Sys2Proof.Machine
end

