-- ==== Sys2Proof/Laws/Exec.lean ====
section
/-! SUPPORT. What each command can answer, said once: a next state made by `complete` or `raise`, or the fault of
R100. -/

namespace Sys2Proof.Machine

variable {s t : State} {i : Instr}

/-- The checks of BFX after the window's (R51, R52). -/
abbrev bfxFits (width bitoff : Nat) (s : State) : Prop :=
  1 ≤ width ∧ width ≤ 32 ∧ 8 * s.posN + bitoff + width ≤ 8 * s.endN

/-- The bytes a BFX field spans (R100): how many, from POS on. -/
abbrev bfxSpan (width bitoff : Nat) (s : State) : Nat :=
  (8 * s.posN + bitoff + width - 1) / 8 - s.posN + 1

/-- The three ways of BFX (R50, R100). -/
theorem execBfx_cases (width bitoff : Nat) (s : State) :
    (¬ (s.windowOk ∧ bfxFits width bitoff s) ∧ execBfx width bitoff s = .next (raise .errRange s)) ∨
    (s.windowOk ∧ bfxFits width bitoff s ∧
      s.written s.posN (s.posN + bfxSpan width bitoff s) ∧
      execBfx width bitoff s = .next (complete .ok
        [field s (8 * s.posN + bitoff) width, (8 * s.posN + bitoff + width) / 8,
          (8 * s.posN + bitoff + width) % 8] s)) ∨
    (s.windowOk ∧ bfxFits width bitoff s ∧
      ∃ b, s.posN ≤ b ∧ b < s.posN + bfxSpan width bitoff s ∧ s.buf.read b = none ∧
        execBfx width bitoff s = .fault (.unwrittenByte b)) := by
  unfold execBfx
  by_cases hw : s.windowOk
  · rw [withWindow_ok hw]
    by_cases h1 : width = 0 ∨ 32 < width
    · rw [if_pos h1]
      exact .inl ⟨fun ⟨_, h⟩ => by omega, rfl⟩
    · rw [if_neg h1]
      by_cases h2 : 8 * s.endN < 8 * s.posN + bitoff + width
      · rw [if_pos h2]
        exact .inl ⟨fun ⟨_, h⟩ => by omega, rfl⟩
      · rw [if_neg h2]
        have hf : bfxFits width bitoff s := ⟨by omega, by omega, by omega⟩
        dsimp only
        rcases reading_cases s s.posN (bfxSpan width bitoff s) (.next (complete .ok
          [field s (8 * s.posN + bitoff) width, (8 * s.posN + bitoff + width) / 8,
            (8 * s.posN + bitoff + width) % 8] s)) with ⟨h3, h4⟩ | ⟨b, h3, h4, h5, h6⟩
        · exact .inr (.inl ⟨hw, hf, h3, h4⟩)
        · exact .inr (.inr ⟨hw, hf, b, h3, h4, h5, h6⟩)
  · rw [withWindow_bad hw]
    exact .inl ⟨fun ⟨h, _⟩ => hw h, rfl⟩

/-- Every next state of a command is made by `complete` (R12, R85), with a code that is not IDLE (R22). -/
theorem exec_next (h : exec i s = .next t) : ∃ c rs, c ≠ .idle ∧ t = complete c rs s := by
  cases i with
  | bfx width bitoff =>
    rcases execBfx_cases width bitoff s with ⟨-, he⟩ | ⟨-, -, -, he⟩ | ⟨-, -, b, -, -, -, he⟩ <;>
      simp only [exec, he] at h <;> cases h
    · exact ⟨.errRange, [], by decide, rfl⟩
    · exact ⟨.ok, _, by decide, rfl⟩
  | adtsFind =>
    rcases window_cases s (.next (adtsReport s (scan s (s.endN - s.posN) s.posN))) with
      ⟨-, he⟩ | ⟨-, -, he⟩ | ⟨-, b, -, -, -, he⟩ <;> simp only [exec, execAdtsFind, he] at h <;> cases h
    · exact ⟨.errRange, [], by decide, rfl⟩
    · cases scan s (s.endN - s.posN) s.posN with
      | noSync p => exact ⟨.noSync, _, by decide, rfl⟩
      | header p =>
        simp only [adtsReport]
        split
        · exact ⟨.needMore, _, by decide, rfl⟩
        · exact ⟨.found, _, by decide, rfl⟩
  | rtpDec =>
    rcases window_cases s (if s.endN - s.posN < 12 then .next (raise .truncated s) else .next (rtpReport s)) with
      ⟨-, he⟩ | ⟨-, -, he⟩ | ⟨-, b, -, -, -, he⟩ <;> simp only [exec, execRtpDec, he] at h
    · cases h; exact ⟨.errRange, [], by decide, rfl⟩
    · split at h <;> cases h
      · exact ⟨.truncated, [], by decide, rfl⟩
      · exact ⟨.ok, _, by decide, rfl⟩
    · cases h
  | tsScan =>
    rcases window_cases s (.next (tsReport s (walk s ((s.endN - s.posN) / 188) s.posN 0))) with
      ⟨-, he⟩ | ⟨-, -, he⟩ | ⟨-, b, -, -, -, he⟩ <;> simp only [exec, execTsScan, he] at h <;> cases h
    · exact ⟨.errRange, [], by decide, rfl⟩
    · exact ⟨.ok, _, by decide, rfl⟩

/-- A window that fails the check of R43 ends every command in ERR_RANGE. -/
theorem exec_badWindow (i : Instr) (h : ¬ s.windowOk) : exec i s = .next (raise .errRange s) := by
  cases i <;> exact withWindow_bad h _

end Sys2Proof.Machine
end

