-- ==== Sys2Proof/Laws/Memory.lean ====
section
/-! SUPPORT. The laws of BUF's memory: reading after writing (R33, R40), and the canonical form. -/

namespace Sys2Proof.Machine

@[simp] theorem read_nil (b : Nat) : Memory.read [] b = none := rfl

theorem read_cons (a : Nat) (v : Byte) (m : Memory) (b : Nat) :
    Memory.read ((a, v) :: m) b = if a = b then some v else Memory.read m b := rfl

/-- A write stores its byte and leaves every other address alone (R33). -/
theorem read_write (m : Memory) (a b : Nat) (x : Byte) :
    (m.write a x).read b = if b = a then some x else m.read b := by
  induction m with
  | nil => simp only [Memory.write, read_cons, read_nil, eq_comm]
  | cons c m ih =>
    obtain ⟨k, v⟩ := c
    simp only [Memory.write]
    split
    · simp only [read_cons, eq_comm]
    · split
      · simp only [read_cons]; grind
      · simp only [read_cons, ih]; grind

@[simp] theorem read_write_same (m : Memory) (a : Nat) (x : Byte) : (m.write a x).read a = some x := by
  simp [read_write]

theorem read_write_other (m : Memory) {a b : Nat} (x : Byte) (h : b ≠ a) :
    (m.write a x).read b = m.read b := by simp [read_write, h]

/-- The cells of a written memory: the new one, and old ones. -/
theorem mem_write {m : Memory} {a : Nat} {x : Byte} {c : Host.Cell} (h : c ∈ m.write a x) :
    c = (a, x) ∨ c ∈ m := by
  induction m with
  | nil => simpa [Memory.write] using h
  | cons d m ih =>
    obtain ⟨k, v⟩ := d
    simp only [Memory.write] at h
    split at h
    · simpa using h
    · split at h
      · rcases List.mem_cons.1 h with h | h
        · exact .inl h
        · exact .inr (List.mem_cons_of_mem _ h)
      · rcases List.mem_cons.1 h with h | h
        · exact .inr (by simp [h])
        · exact (ih h).imp id (List.mem_cons_of_mem _)

/-- A write keeps the canonical form. -/
theorem write_wf {m : Memory} (h : m.wf) (a : Nat) (x : Byte) : (m.write a x).wf := by
  induction m with
  | nil => simp [Memory.write]
  | cons d m ih =>
    obtain ⟨k, v⟩ := d
    have ⟨hk, hm⟩ := List.pairwise_cons.1 h
    simp only [Memory.write]
    split
    · rename_i hlt
      refine List.pairwise_cons.2 ⟨fun c hc => ?_, h⟩
      rcases List.mem_cons.1 hc with rfl | hc
      · exact hlt
      · exact hlt.trans (hk c hc)
    · split
      · rename_i heq
        subst heq
        exact List.pairwise_cons.2 ⟨hk, hm⟩
      · refine List.pairwise_cons.2 ⟨fun c hc => ?_, ih hm⟩
        rcases mem_write hc with rfl | hc
        · change k < a; omega
        · exact hk c hc

/-- A write inside BUF keeps every address inside BUF. -/
theorem write_below {m : Memory} {cap : Nat} (h : m.below cap) {a : Nat} (x : Byte) (ha : a < cap) :
    (m.write a x).below cap := by
  intro c hc
  rcases mem_write hc with rfl | hc
  · exact ha
  · exact h c hc

/-- A canonical memory holds at most one byte at an address, so reading finds every listed byte. -/
theorem read_of_mem {m : Memory} (h : m.wf) {a : Nat} {v : Byte} (hm : (a, v) ∈ m) :
    m.read a = some v := by
  induction m with
  | nil => simp at hm
  | cons d m ih =>
    obtain ⟨k, u⟩ := d
    have ⟨hk, hw⟩ := List.pairwise_cons.1 h
    rcases List.mem_cons.1 hm with he | hm
    · cases he; simp [read_cons]
    · have := hk _ hm
      rw [read_cons, if_neg (Nat.ne_of_lt this)]
      exact ih hw hm

/-- What a memory reads is listed in it. -/
theorem mem_of_read {m : Memory} {a : Nat} {v : Byte} (h : m.read a = some v) : (a, v) ∈ m := by
  induction m with
  | nil => simp at h
  | cons d m ih =>
    obtain ⟨k, u⟩ := d
    rw [read_cons] at h
    split at h
    · rename_i hk; subst hk; cases h; exact List.mem_cons_self
    · exact List.mem_cons_of_mem _ (ih h)

/-- Equal memories are equal data: two canonical memories that read alike are the same list. -/
theorem eq_of_read_eq {m n : Memory} (hm : m.wf) (hn : n.wf) (h : ∀ a, m.read a = n.read a) : m = n := by
  have hsub : ∀ {m n : Memory}, m.wf → (∀ a, m.read a = n.read a) → ∀ c, c ∈ m → c ∈ n := by
    intro m n hm h c hc
    exact mem_of_read ((h c.1).symm.trans (read_of_mem hm hc))
  have key : ∀ {m : Memory}, m.wf → m.Nodup := fun h =>
    h.imp fun {x y} hxy he => by subst he; exact Nat.lt_irrefl _ hxy
  have hp : m.Perm n := (List.perm_ext_iff_of_nodup (key hm) (key hn)).2
    fun c => ⟨hsub hm h c, hsub hn (fun a => (h a).symm) c⟩
  exact hp.eq_of_pairwise (fun x y _ _ hxy hyx => absurd hxy (Nat.lt_asymm hyx)) hm hn

end Sys2Proof.Machine
end

