-- ==== Sys2Proof/Laws/PerInstr.lean ====
section
/-! SUPPORT. Of each command: its word is its row of the opcode table (R44). -/

namespace Sys2Proof.Laws

/-- The mask of a command's row (R44). -/
def rowMask : Instr → Word
  | .bfx _ _ => 0xFFC0F8FF#32
  | .adtsFind => 0xFFFFFFFF#32
  | .rtpDec => 0xFFFFFFFF#32
  | .tsScan => 0xFFFFFFFF#32

/-- The full-word match of a command's row (R44). -/
def rowMatch : Instr → Word
  | .bfx _ _ => 0x00000001#32
  | .adtsFind => 0x00000002#32
  | .rtpDec => 0x00000003#32
  | .tsScan => 0x00000004#32

/-- A well-formed command's word has the fixed bits of its row. -/
def EncodesItsTableRow.Statement (i : Instr) : Prop :=
  i.wf = true → encode i &&& rowMask i = rowMatch i

theorem EncodesItsTableRow.bfx (width bitoff : Nat) : EncodesItsTableRow.Statement (.bfx width bitoff) := by
  have all : ∀ w : Fin 64, ∀ o : Fin 8,
      encode (.bfx w.val o.val) &&& 0xFFC0F8FF#32 = 0x00000001#32 := by decide
  intro h
  simp only [Instr.wf, Bool.and_eq_true, decide_eq_true_eq] at h
  exact all ⟨width, by omega⟩ ⟨bitoff, by omega⟩

theorem EncodesItsTableRow.adtsFind : EncodesItsTableRow.Statement .adtsFind := fun _ => by decide

theorem EncodesItsTableRow.rtpDec : EncodesItsTableRow.Statement .rtpDec := fun _ => by decide

theorem EncodesItsTableRow.tsScan : EncodesItsTableRow.Statement .tsScan := fun _ => by decide

end Sys2Proof.Laws
end

