-- ==== Sys2Proof/Laws/Registers.lean ====
section
/-! SUPPORT. The register map (R15, R24, R36, R49), the command that a write of CMD issues (R17), and what a step
can do. -/

namespace Sys2Proof.Machine

variable {s t : State}

/-- A register stands at its offset (R49). -/
@[simp] theorem ofOffset_offset (r : Reg) : Reg.ofOffset r.offset = some r := by
  cases r with
  | res i => revert i; decide
  | _ => rfl

/-- Only a register's own offset is its (R15). -/
theorem offset_of_ofOffset {off : Nat} {r : Reg} (h : Reg.ofOffset off = some r) : off = r.offset := by
  unfold Reg.ofOffset at h
  repeat' split at h
  all_goals cases h
  all_goals simp only [Reg.offset]
  all_goals omega

/-- Only offset 0x00 is CMD's. -/
theorem ofOffset_cmd {off : Nat} : Reg.ofOffset off = some .cmd ↔ off = 0 :=
  ⟨offset_of_ofOffset, fun h => by subst h; rfl⟩

/-- A write of CMD sets CMD and issues the command (R17). -/
theorem regWrite_cmd (v : Word) (s : State) : regWrite 0 v s = issue { s with cmd := v } := rfl

/-- Any other register write only stores (R16). -/
theorem regWrite_other {off : Nat} (h : off ≠ 0) (v : Word) (s : State) :
    regWrite off v s = .next (storeReg off v s) := by
  rw [regWrite, if_neg (fun hc => h (ofOffset_cmd.1 hc))]

theorem storeReg_cmd_other {off : Nat} (h : off ≠ 0) (v : Word) (s : State) :
    (storeReg off v s).cmd = s.cmd := by
  unfold storeReg
  split
  · rename_i hc; exact absurd (ofOffset_cmd.1 hc) h
  all_goals rfl

/-- The engine step of an illegal word (R43, R46). -/
theorem issue_illegal {e : Illegal} (h : decode s.cmd = .error e) : issue s = .next (raise .errOpcode s) := by
  rw [issue, h]

/-- The engine step of a command (R43). -/
theorem issue_command {i : Instr} (h : decode s.cmd = .ok i) : issue s = exec i s := by rw [issue, h]

/-- Every next state of an engine step is made by `complete`, with a code that is not IDLE (R12, R22). -/
theorem issue_next (h : issue s = .next t) : ∃ c rs, c ≠ .idle ∧ t = complete c rs s := by
  cases hd : decode s.cmd with
  | error e =>
    rw [issue_illegal hd] at h
    cases h
    exact ⟨.errOpcode, [], by decide, rfl⟩
  | ok i => exact exec_next (issue_command hd ▸ h)

/-- A step performs the first host event (R40). -/
theorem step_cons {e : HostEvent} {rest : List HostEvent} (h : s.host = e :: rest) :
    step s = perform e { s with host := rest } := by rw [step, h]

/-- A step with nothing to come changes nothing (R97). -/
theorem step_nil (h : s.host = []) : step s = .next s := by rw [step, h]

/-- What a step that goes on can have done. -/
theorem step_next (h : step s = .next t) :
    (s.host = [] ∧ t = s) ∨
    ∃ e rest, s.host = e :: rest ∧ perform e { s with host := rest } = .next t := by
  cases hh : s.host with
  | nil => rw [step_nil hh] at h; cases h; exact .inl ⟨rfl, rfl⟩
  | cons e rest => rw [step_cons hh] at h; exact .inr ⟨e, rest, rfl, h⟩

/-- What one host event that goes on can have done. -/
theorem perform_next {e : HostEvent} (h : perform e s = .next t) :
    (∃ off, e = .regRead off ∧ t = { s with rdReg := regRead s off }) ∨
    (∃ d, e = .regWrite 0 d ∧ issue { s with cmd := d.value s } = .next t) ∨
    (∃ off d, e = .regWrite off d ∧ off ≠ 0 ∧ t = storeReg off (d.value s) s) ∨
    (∃ a, e = .bufRead a ∧ t = bufRead a s) ∨
    (∃ a d, e = .bufWrite a d ∧ t = bufWrite a (d.value s) s) ∨
    (∃ off, e = .regReadNarrow off ∧ t = { s with rdReg := 0#32 }) ∨
    (∃ off d, e = .regWriteNarrow off d ∧ t = s) ∨
    (e = .reset ∧ t = applyReset s) := by
  cases e with
  | regWrite off d =>
    by_cases h0 : off = 0
    · subst h0
      exact .inr (.inl ⟨d, rfl, (regWrite_cmd ..).symm.trans h⟩)
    · have h' : regWrite off (d.value s) s = .next t := h
      rw [regWrite_other h0] at h'
      cases h'
      exact .inr (.inr (.inl ⟨off, d, rfl, h0, rfl⟩))
  | _ => simp only [perform] at h; cases h; simp

end Sys2Proof.Machine
end

