-- ==== Sys2Proof/Tests/Slice0.lean ====
section
/-! SUPPORT. Tests: what WellFormed refuses, words written out from the spec's encodings, one step on a small state for
each command (expected results from 95_test_vectors.md), and for each statement a state that meets its hypotheses. -/

namespace Sys2Proof.Tests

open Sys2Proof.Machine

/-! ### Helpers -/

/-- A memory of the given bytes from an address on. -/
def bytesAt (a : Nat) : List Byte → Memory
  | [] => []
  | b :: bs => (a, b) :: bytesAt (a + 1) bs

/-- The reset state with the given bytes at an address, and the window [pos, wend). -/
def st (a : Nat) (bs : List Byte) (pos wend : Nat) : State :=
  { State.reset with buf := bytesAt a bs, pos := BitVec.ofNat 32 pos, wend := BitVec.ofNat 32 wend }

/-- STATUS and the results of the step that issues a command word. -/
def after (s : State) (w : Nat) : Option (Nat × List Nat) :=
  match step (s.withFetchWord 32 w) with
  | .next t => some (t.status.toNat, t.resN)
  | .fault _ => none
  | .refused _ => none

/-- The fault of the step that issues a command word. -/
def faultOf (s : State) (w : Nat) : Option Fault :=
  match step (s.withFetchWord 32 w) with
  | .fault f => some f
  | .next _ => none
  | .refused _ => none

/-- An outcome is a next state with a property. -/
def nextWith (p : State → Bool) : Result → Bool
  | .next t => p t
  | .fault _ => false
  | .refused _ => false

theorem nextWith_spec {p : State → Bool} {r : Result} (h : nextWith p r = true) :
    ∃ t, r = .next t ∧ p t = true := by
  cases r with
  | next t => exact ⟨t, rfl, h⟩
  | fault f => cases h
  | refused f => cases h

theorem read_bytesAt (a : Nat) (bs : List Byte) (b : Nat) (h : a ≤ b) (hb : b < a + bs.length) :
    ((bytesAt a bs).read b).isSome := by
  induction bs generalizing a with
  | nil => simp at hb; omega
  | cons x xs ih =>
    rw [bytesAt, read_cons]
    split
    · rfl
    · exact ih (a + 1) (by omega) (by simp at hb; omega)

/-- A window inside the given bytes can be read. -/
theorem ready_st {a pos wend : Nat} {bs : List Byte}
    (h : a ≤ pos ∧ pos ≤ wend ∧ wend ≤ a + bs.length ∧ wend ≤ 65536) : (st a bs pos wend).Ready := by
  have hp : (st a bs pos wend).posN = pos := by
    change (BitVec.ofNat 32 pos).toNat = pos
    rw [BitVec.toNat_ofNat]; omega
  have he : (st a bs pos wend).endN = wend := by
    change (BitVec.ofNat 32 wend).toNat = wend
    rw [BitVec.toNat_ofNat]; omega
  have hc : (st a bs pos wend).capN = 65536 := rfl
  refine ⟨⟨by omega, by omega⟩, fun b h1 h2 => read_bytesAt a bs b (by omega) (by omega), by omega⟩

/-- `F9` of 95_test_vectors.md. -/
def f9 : List Byte := [0xFF, 0xF1, 0x50, 0x80, 0x01, 0x3F, 0xFC, 0x00, 0x00]

/-- `RTPH` of 95_test_vectors.md. -/
def rtph : List Byte := [0x80, 0x21, 0x00, 0x01, 0x00, 0x00, 0x0B, 0xB8, 0x12, 0x34, 0x56, 0x78]

/-- `TS(v)` of 95_test_vectors.md. -/
def stride (v : Byte) : List Byte := 0x47 :: List.replicate 187 v

theorem length_stride (v : Byte) : (stride v).length = 188 := by
  rw [stride, List.length_cons, List.length_replicate]

/-- V-TS-9: a good stride and 50 bytes more. -/
def tsShort : State := st 0 (stride 0 ++ List.replicate 50 0) 0 238

/-- V-TS-5: a bad stride and a good one. -/
def tsBad : State := st 0 (List.replicate 188 0 ++ stride 1) 0 376

theorem ready_tsShort : tsShort.Ready :=
  ready_st (by rw [List.length_append, length_stride, List.length_replicate]; omega)

theorem ready_tsBad : tsBad.Ready :=
  ready_st (by rw [List.length_append, length_stride, List.length_replicate]; omega)

/-! ### What WellFormed refuses (R48) -/

theorem test_wf_refuses_width_64 : (Instr.bfx 64 0).wf = false := by decide
theorem test_wf_refuses_bitoff_8 : (Instr.bfx 1 8).wf = false := by decide

/-! ### Words written out from the spec's encodings (R42, R44, R48) -/

/-- `0000000000WWWWWW00000OOO00000001` with WIDTH 13 and BITOFF 6, the example of R48. -/
theorem test_decode_bfx : decode 0b00000000000011010000011000000001#32 = .ok (.bfx 13 6) := by decide
/-- Every bit of both operand fields set. -/
theorem test_decode_bfx_all_ones : decode 0b00000000001111110000011100000001#32 = .ok (.bfx 63 7) := by decide
theorem test_decode_adtsFind : decode 0b00000000000000000000000000000010#32 = .ok .adtsFind := by decide
theorem test_decode_rtpDec : decode 0b00000000000000000000000000000011#32 = .ok .rtpDec := by decide
theorem test_decode_tsScan : decode 0b00000000000000000000000000000100#32 = .ok .tsScan := by decide
/-- V-DEC-1, V-DEC-2: a reserved opcode. -/
theorem test_decode_reserved_opcode :
    decode 0x00000000#32 = .error (.reservedOpcode 0) ∧ decode 0x00000005#32 = .error (.reservedOpcode 5) := by
  decide
/-- V-DEC-4, V-DEC-5, V-BFX-14: a reserved bit. -/
theorem test_decode_reserved_bits :
    decode 0x00000012#32 = .error (.reservedBits 2) ∧ decode 0x00000104#32 = .error (.reservedBits 4) ∧
    decode 0x00010801#32 = .error (.reservedBits 1) := by decide
theorem test_table_words :
    decodeTableWord 32 0x00000001 = some (.bfx 0 0) ∧ decodeTableWord 32 0x00000002 = some .adtsFind ∧
    decodeTableWord 32 0x00000003 = some .rtpDec ∧ decodeTableWord 32 0x00000004 = some .tsScan := by decide

/-! ### One step of each command -/

/-- V-BFX-1: a field over three bytes, with the byte after it unwritten. -/
theorem test_bfx_frame_length :
    after (st 3 [0x80, 0x01, 0x3F] 3 7) 0x000D0601 = some (0x11, [9, 5, 3, 0, 0, 0, 0, 0]) := by decide
/-- V-BFX-3: the widest field, over five bytes. -/
theorem test_bfx_five_bytes :
    after (st 0 [0x01, 0x23, 0x45, 0x67, 0x89] 0 5) 0x00200701
      = some (0x11, [0x91A2B3C4, 4, 7, 0, 0, 0, 0, 0]) := by decide
/-- V-ADTS-2: a frame after three garbage bytes. -/
theorem test_adts_skips_garbage :
    after (st 0 (0x00 :: 0x12 :: 0x34 :: f9) 0 12) 0x00000002
      = some (0x22, [12, 3, 9, 9, 3, 0x5420, 0x1FFC, 44100]) := by decide
/-- V-ADTS-9: a garbage 0xFF before the marker is a candidate whose frame is too long. -/
theorem test_adts_false_candidate :
    after (st 0 (0xFF :: f9) 0 10) 0x00000002
      = some (0x23, [0, 0, 1024, 0, 0, 0x3FC54, 319, 0]) := by decide
/-- V-RTP-2: the header alone. -/
theorem test_rtp_header :
    after (st 0 rtph 0 12) 0x00000003
      = some (0x31, [12, 0, 0x8021, 1, 3000, 0x12345678, 4, 33]) := by decide
/-- V-RTP-7: a window not at 0, every byte of the big-endian fields different. -/
theorem test_rtp_window :
    after (st 100 [0x80, 0x60, 0xAB, 0xCD, 0xDE, 0xAD, 0xBE, 0xEF, 0xCA, 0xFE, 0xBA, 0xBE, 1, 2, 3] 100 115)
        0x00000003
      = some (0x31, [112, 3, 0x8060, 0xABCD, 0xDEADBEEF, 0xCAFEBABE, 6, 96]) := by decide
/-- V-TS-9: the 188-byte check comes before the sync check. -/
theorem test_ts_remainder :
    nextWith (fun t => t.resN == [188, 1, 0, 50, 0, 0, 0, 0]) (exec .tsScan tsShort) = true := by
  rw [exec, execTsScan, ready_tsShort.run]; decide
/-- V-TS-5: a bad first stride. -/
theorem test_ts_mismatch :
    nextWith (fun t => t.resN == [0, 0, 1, 376, 0, 0, 0, 0]) (exec .tsScan tsBad) = true := by
  rw [exec, execTsScan, ready_tsBad.run]; decide
/-- V-ADTS-19: an unwritten byte of the window. -/
theorem test_unwritten_byte_faults : faultOf (st 0 f9 0 10) 0x00000002 = some (.unwrittenByte 9) := by decide
/-- V-DEC-8: a reserved bit goes before the window. -/
theorem test_opcode_before_range :
    after (st 0 [] 5 0) 0x00000012 = some (0x27, [0, 0, 0, 0, 0, 0, 0, 0]) := by decide

/-! ### For each statement with hypotheses, inputs that meet them -/

theorem next_of {r : Result} (h : nextWith (fun _ => true) r = true) : ∃ t, r = .next t :=
  let ⟨t, ht, _⟩ := nextWith_spec h
  ⟨t, ht⟩

theorem code_of {r : Result} {c : Nat} (h : nextWith (fun t => t.code == c) r = true) :
    ∃ t, r = .next t ∧ t.code = c :=
  let ⟨t, ht, hc⟩ := nextWith_spec h
  ⟨t, ht, beq_iff_eq.1 hc⟩

/-- The reset state with host transactions to come. -/
def withHost (es : List HostEvent) : State := { State.reset with host := es }

/-- V-ADTS-1: `F9` in a window of its own length. -/
def adtsWhole : State := st 0 f9 0 9
/-- V-ADTS-2: `F9` after three bytes that start no frame. -/
def adtsGarbage : State := st 0 (0x00 :: 0x12 :: 0x34 :: f9) 0 12
/-- V-ADTS-5: only the header of `F9`. -/
def adtsPart : State := st 0 (f9.take 7) 0 7
/-- V-ADTS-17: the only candidate has a length of 5. -/
def adtsNone : State := st 0 [0xFF, 0xF1, 0x50, 0x80, 0x00, 0xBF, 0xFC, 0x00, 0x00, 0x00] 0 10
/-- `H7(1, idx)` of 95_test_vectors.md, the smallest frame, by its byte 2. -/
def adtsIndex (b2 : Byte) : State := st 0 [0xFF, 0xF1, b2, 0x80, 0x00, 0xFF, 0xFC] 0 7
/-- V-RTP-PT: a datagram of the given payload type. -/
def rtpOf (pt : Byte) : State := st 0 [0x80, pt, 0, 0, 0, 0, 0, 0, 0, 0, 0, 0] 0 12

theorem witness_DecodeUndoesEncode :
    (Instr.bfx 0 0).wf = true ∧ (Instr.bfx 63 7).wf = true ∧ Instr.adtsFind.wf = true ∧
    Instr.rtpDec.wf = true ∧ Instr.tsScan.wf = true := by decide

theorem witness_EncodeUndoesDecode : decode 0x003F0701#32 = .ok (.bfx 63 7) := by decide

theorem witness_OpcodeMapSelectsByMaskAndMatch :
    (0x00000000#32).toNat % 16 = 0 ∧ 5 ≤ (0x00000005#32).toNat % 16 ∧ 5 ≤ (0xFFFFFFFF#32).toNat % 16 := by
  decide

theorem witness_IllegalWordsEndInErrOpcode :
    (∃ e, decode 0x00000005#32 = .error e) ∧ (∃ e, decode 0x80000001#32 = .error e) ∧
    (∃ e, decode 0x80000004#32 = .error e) ∧
    ∀ width, width = 0 ∨ width = 33 ∨ width = 63 → (width = 0 ∨ (33 ≤ width ∧ width ≤ 63)) ∧ 7 ≤ 7 :=
  ⟨⟨_, rfl⟩, ⟨_, rfl⟩, ⟨_, rfl⟩, by omega⟩

theorem witness_StepRunsTheDecodedCommand :
    (withHost [.regWrite 0x00 (.imm 0x002#32)]).host = [.regWrite 0x00 (.imm 0x002#32)] ∧
    decode ((WordSource.imm 0x002#32).value (withHost [])) = .ok .adtsFind ∧
    decodeTableWord 32 0x003F0701 = some (.bfx 63 7) ∧
    (withHost ((HostStmt.command .tsScan).expand ++ [.reset])).host = (HostStmt.command .tsScan).expand ++ [.reset] ∧
    decode (encode .tsScan) = .ok .tsScan ∧ (withHost []).host = [] := by decide

theorem witness_PosIsHeldAsWritten :
    (∃ t, exec .rtpDec State.reset = .next t) ∧ State.reset.capN < (65537#32).toNat :=
  ⟨next_of (by decide), by decide⟩

theorem witness_EndIsHeldAsWrittenAndBoundsEveryCommand :
    (∃ t, exec .rtpDec State.reset = .next t) ∧ (st 0 [] 1 0).endN < (st 0 [] 1 0).posN ∧
    (st 0 [] 0 65537).capN < (st 0 [] 0 65537).endN :=
  ⟨next_of (by decide), by decide, by decide⟩

theorem witness_CapReadsBufCapForever :
    (Config.mk 8191 Config.default.freq).wf ∧ (Config.mk 65536 Config.default.freq).wf ∧
    ∃ t, step State.reset = .next t :=
  ⟨by decide, by decide, next_of (by decide)⟩

theorem witness_ReadOnlyRegistersIgnoreWrites :
    (Reg.res 7 = .status ∨ Reg.res 7 = .cap ∨ ∃ k, Reg.res 7 = .res k) ∧ 1 % 4 ≠ 0 ∧
    ∃ t, exec .rtpDec State.reset = .next t :=
  ⟨.inr (.inr ⟨7, rfl⟩), by decide, next_of (by decide)⟩

theorem witness_ReservedOffsetsReadZero : (0x14 = 0x14 ∨ 0x14 = 0x18 ∨ 0x14 = 0x1C) ∧ 0x40 ≤ 0x40 := by decide

theorem witness_RegisterAccessOutsideTheMapDoesNothing :
    (0x02 % 4 ≠ 0 ∨ 0x40 ≤ 0x02) ∧ (0x40 % 4 ≠ 0 ∨ 0x40 ≤ 0x40) ∧
    (withHost [.regRead 0x40]).host = .regRead 0x40 :: [] ∧
    (withHost [.regWrite 0x02 .lastRead]).host = .regWrite 0x02 .lastRead :: [] ∧
    (withHost [.regReadNarrow 0x00]).host = .regReadNarrow 0x00 :: [] ∧
    (withHost [.regWriteNarrow 0x00 .lastRead]).host = .regWriteNarrow 0x00 .lastRead :: [] := by decide

theorem witness_BufWriteStoresOneByte :
    (withHost [.bufWrite 65535 (.imm 1)]).host = .bufWrite 65535 (.imm 1) :: [] ∧
    65535 < (withHost [.bufWrite 65535 (.imm 1)]).capN ∧
    (withHost [.bufWrite 65536 .lastRead]).host = .bufWrite 65536 .lastRead :: [] ∧
    (withHost [.bufWrite 65536 .lastRead]).capN ≤ 65536 := by decide

theorem witness_BufReadReturnsTheByte :
    (withHost [.bufRead 65535]).host = .bufRead 65535 :: [] ∧
    65535 < ({ withHost [.bufRead 65535] with buf := [(65535, 7)] } : State).capN ∧
    ({ withHost [.bufRead 65535] with buf := [(65535, 7)] } : State).buf.read 65535 = some 7 ∧
    65535 < (withHost [.bufRead 65535]).capN ∧ (withHost [.bufRead 65535]).buf.read 65535 = none ∧
    (withHost [.bufRead 65536]).host = .bufRead 65536 :: [] ∧ (withHost [.bufRead 65536]).capN ≤ 65536 := by
  decide

/-- A run of a write to another byte and a command keeps byte 4. -/
theorem witness_BytesChangeOnlyByHostWrites :
    (∃ t, exec .rtpDec State.reset = .next t) ∧
    (∃ t, run 2 (withHost [.bufWrite 3 (.imm 1), .regWrite 0 (.imm 3#32)]) = .next t) ∧
    ∀ e ∈ (withHost [.bufWrite 3 (.imm 1), .regWrite 0 (.imm 3#32)]).host.take 2,
      e ≠ .reset ∧ ∀ d, e ≠ .bufWrite 4 d :=
  ⟨next_of (by decide), next_of (by decide), by simp [withHost]⟩

theorem witness_ResetStateHoldsTheResetValues :
    (Config.mk 8191 Config.default.freq).wf ∧ (Config.mk 65536 Config.default.freq).wf := by decide

/-- A reset after a command; and a step that leaves the reset state idle. -/
theorem witness_ResetIsTheOnlyWayToIdle :
    ({ withHost [.reset] with status := 0x11#32 } : State).host = .reset :: [] ∧
    (∃ t, step ({ withHost [.reset] with status := 0x11#32 } : State) = .next t ∧ t.code = 0) ∧
    ∃ t, step (withHost [.regRead 0]) = .next t ∧ t.code = 0 :=
  ⟨by decide, code_of (by decide), code_of (by decide)⟩

theorem witness_StatusHoldsCodeAndOpcode :
    (∃ t, regWrite 0x00 0x00000003#32 State.reset = .next t) ∧
    (∃ t, step (withHost [.regWrite 0x08 (.imm 5#32)]) = .next t) ∧
    (∀ d rest, (withHost [.regWrite 0x08 (.imm 5#32)]).host ≠ .regWrite 0x00 d :: rest) ∧
    ∀ rest, (withHost [.regWrite 0x08 (.imm 5#32)]).host ≠ .reset :: rest :=
  ⟨next_of (by decide), next_of (by decide), by simp [withHost], by simp [withHost]⟩

/-- Each code that a command produces is produced. -/
theorem witness_StatusCodesByCommand :
    (∃ t, regWrite 0x00 0x00000004#32 State.reset = .next t ∧ t.code = 1) ∧
    (∃ t, regWrite 0x00 0x00000002#32 adtsWhole = .next t ∧ t.code = 2) ∧
    (∃ t, regWrite 0x00 0x00000002#32 adtsPart = .next t ∧ t.code = 3) ∧
    (∃ t, regWrite 0x00 0x00000002#32 adtsNone = .next t ∧ t.code = 4) ∧
    (∃ t, regWrite 0x00 0x00000003#32 State.reset = .next t ∧ t.code = 5) ∧
    (∃ t, regWrite 0x00 0x00210001#32 (st 0 [] 0 5) = .next t ∧ t.code = 6) ∧
    ∃ t, regWrite 0x00 0x00000000#32 State.reset = .next t ∧ t.code = 7 :=
  ⟨code_of (by decide), code_of (by decide), code_of (by decide), code_of (by decide), code_of (by decide),
    code_of (by decide), code_of (by decide)⟩

theorem witness_EngineChangesOnlyStatusAndResults : ∃ t, exec .adtsFind adtsGarbage = .next t :=
  next_of (by decide)

theorem witness_UndefinedResultsAreZero :
    (∃ t, regWrite 0x00 0x00000003#32 State.reset = .next t ∧ t.code = 5) ∧
    (∃ t, exec (.bfx 8 0) adtsWhole = .next t) ∧ (∃ t, exec .tsScan adtsWhole = .next t) ∧
    ∃ t, exec .adtsFind adtsNone = .next t ∧ t.code = 4 :=
  ⟨code_of (by decide), next_of (by decide), next_of (by decide), code_of (by decide)⟩

/-- Two states alike in the window [1, 3) and in nothing outside it. -/
theorem witness_ResultsDependOnlyOnTheWindow :
    (st 0 [1, 2, 3, 4] 1 3).pos = (st 1 [2, 3] 1 3).pos ∧ (st 0 [1, 2, 3, 4] 1 3).wend = (st 1 [2, 3] 1 3).wend ∧
    (st 0 [1, 2, 3, 4] 1 3).cap = (st 1 [2, 3] 1 3).cap ∧ (st 0 [1, 2, 3, 4] 1 3).freq = (st 1 [2, 3] 1 3).freq ∧
    (∀ a, (st 0 [1, 2, 3, 4] 1 3).posN ≤ a → a < (st 0 [1, 2, 3, 4] 1 3).endN →
      (st 0 [1, 2, 3, 4] 1 3).buf.read a = (st 1 [2, 3] 1 3).buf.read a) ∧
    ∃ t, regWrite 0x00 0x00080001#32 (st 0 [1, 2, 3, 4] 1 3) = .next t :=
  ⟨rfl, rfl, rfl, rfl, by decide, next_of (by decide)⟩

/-- A window with its last byte unwritten, and a field that ends in an unwritten byte. -/
theorem witness_CommandsFaultExactlyOnUnwrittenFootprint :
    ((st 0 f9 0 10).windowOk ∧ 0 ≤ 9 ∧ 9 < (st 0 f9 0 10).endN ∧ (st 0 f9 0 10).buf.read 9 = none) ∧
    (8 * (st 0 f9 8 10).posN + 7 + 2 ≤ 8 * (st 0 f9 8 10).endN ∧
      9 ≤ (8 * (st 0 f9 8 10).posN + 7 + 2 - 1) / 8 ∧ (st 0 f9 8 10).buf.read 9 = none) ∧
    ∃ e, decode 0x00000012#32 = .error e :=
  ⟨by decide, by decide, _, rfl⟩

theorem witness_RepeatedCommandGivesTheSameState :
    ∃ t, regWrite 0x00 0x00000002#32 adtsGarbage = .next t := next_of (by decide)

/-- Each command, with each code that reports a position; TS.SCAN with one stride accepted (V-TS-9). -/
theorem witness_ReportedPositionKeepsTheWindow :
    adtsGarbage.capN ≤ 65536 ∧ (∃ t, exec .adtsFind adtsGarbage = .next t ∧ t.code = 2) ∧
    (∃ t, exec (.bfx 1 7) adtsGarbage = .next t ∧ t.code = 1) ∧
    adtsPart.capN ≤ 65536 ∧ (∃ t, exec .adtsFind adtsPart = .next t ∧ t.code = 3) ∧
    adtsNone.capN ≤ 65536 ∧ (∃ t, exec .adtsFind adtsNone = .next t ∧ t.code = 4) ∧
    (st 0 rtph 0 12).capN ≤ 65536 ∧ (∃ t, exec .rtpDec (st 0 rtph 0 12) = .next t ∧ t.code = 1) ∧
    tsShort.capN ≤ 65536 ∧ ∃ t, exec .tsScan tsShort = .next t ∧ t.code = 1 :=
  ⟨by decide, code_of (by decide), code_of (by decide), by decide, code_of (by decide), by decide,
    code_of (by decide), by decide, code_of (by decide), by decide,
    code_of (by rw [exec, execTsScan, ready_tsShort.run]; decide)⟩

/-- A field that ends with the window; the same with one bit more; a reserved bit. -/
theorem witness_BfxExtractsTheField :
    (({ st 0 [0xAB, 0xCD] 0 2 with cmd := encode (.bfx 12 4) } : State).windowOk ∧
      8 * (st 0 [0xAB, 0xCD] 0 2).posN + 4 + 12 ≤ 8 * (st 0 [0xAB, 0xCD] 0 2).endN) ∧
    ({ st 0 [0xAB, 0xCD] 0 2 with cmd := encode (.bfx 12 4) } : State).written 0 2 ∧
    8 * (st 0 [0xAB, 0xCD] 0 2).endN < 8 * (st 0 [0xAB, 0xCD] 0 2).posN + 4 + 13 ∧
    (0x00010801#32).toNat % 16 = 1 ∧ 0x00010801#32 &&& 0xFFC0F8F0#32 ≠ 0#32 :=
  ⟨by decide, fun b _ hb => read_bytesAt 0 [0xAB, 0xCD] b (by omega) (by simpa using hb), by decide, by decide,
    by decide⟩

/-- The widest span, over five bytes, and a single bit; two states that differ outside the field. -/
theorem witness_FieldIsASliceOfBigEndianBytes :
    (7 ≤ 7 ∧ 1 ≤ 32 ∧ 5 = (8 * 0 + 7 + 32 - 1) / 8 - 0 + 1) ∧ (0 ≤ 7 ∧ 1 ≤ 1 ∧ 1 = (8 * 2 + 0 + 1 - 1) / 8 - 2 + 1) ∧
    ∀ q, 8 * 0 + 1 ≤ q → q < 8 * 0 + 1 + 2 → bitAt (st 0 [0xE1] 0 1) q = bitAt (st 0 [0x7F] 0 1) q := by decide

/-- V-ADTS-2 and V-ADTS-10: after garbage, and the smallest frame, which fills its window. -/
theorem witness_AdtsFindReportsAFrame :
    (adtsGarbage.Ready ∧ adtsGarbage.posN ≤ 3 ∧ 3 + 7 ≤ adtsGarbage.endN ∧ adtsGarbage.frameAt 3 ∧
      (∀ r, adtsGarbage.posN ≤ r → r < 3 → ¬ adtsGarbage.frameAt r) ∧
      adtsGarbage.lengthAt 3 ≤ adtsGarbage.endN - 3) ∧
    (adtsIndex 0x50).Ready ∧ (adtsIndex 0x50).frameAt 0 ∧ (adtsIndex 0x50).lengthAt 0 ≤ (adtsIndex 0x50).endN - 0 :=
  ⟨⟨ready_st (by decide), by decide, by decide, by decide, by decide, by decide⟩, ready_st (by decide), by decide,
    by decide⟩

theorem witness_AdtsFindNeedsMore :
    adtsPart.Ready ∧ adtsPart.posN ≤ 0 ∧ 0 + 7 ≤ adtsPart.endN ∧ adtsPart.frameAt 0 ∧
    (∀ r, adtsPart.posN ≤ r → r < 0 → ¬ adtsPart.frameAt r) ∧ adtsPart.endN - 0 < adtsPart.lengthAt 0 :=
  ⟨ready_st (by decide), by decide, by decide, by decide, by decide, by decide⟩

/-- V-ADTS-17 and V-ADTS-7: a candidate too short to be a frame, and an empty window. -/
theorem witness_AdtsFindNoSync :
    (adtsNone.Ready ∧ ∀ r, adtsNone.posN ≤ r → r + 7 ≤ adtsNone.endN → ¬ adtsNone.frameAt r) ∧
    (st 0 [] 0 0).Ready ∧ ∀ r, (st 0 [] 0 0).posN ≤ r → r + 7 ≤ (st 0 [] 0 0).endN → ¬ (st 0 [] 0 0).frameAt r := by
  refine ⟨⟨ready_st (by decide), fun r _ h => ?_⟩, ready_st (by decide), fun r _ h => ?_⟩
  · have hn : ∀ r, r < 4 → ¬ adtsNone.frameAt r := by decide
    have : adtsNone.endN = 10 := rfl
    exact hn r (by omega)
  · have : (st 0 [] 0 0).endN = 0 := rfl
    omega

theorem witness_AdtsFindAnswersTheFirstFrame :
    adtsGarbage.capN ≤ 65536 ∧ adtsGarbage.windowOk ∧ (∃ t, exec .adtsFind adtsGarbage = .next t ∧ t.code = 2) ∧
    adtsPart.windowOk ∧ (∃ t, exec .adtsFind adtsPart = .next t ∧ t.code = 3) ∧
    adtsNone.windowOk ∧ ∃ t, exec .adtsFind adtsNone = .next t ∧ t.code = 4 :=
  ⟨by decide, by decide, code_of (by decide), by decide, code_of (by decide), by decide, code_of (by decide)⟩

/-- V-ADTS-2 and V-ADTS-17: no candidate at POS, and a candidate with a length of 5. -/
theorem witness_AdtsFindAdvancesOneByte :
    (adtsGarbage.Ready ∧ adtsGarbage.posN + 7 ≤ adtsGarbage.endN ∧ ¬ adtsGarbage.frameAt adtsGarbage.posN) ∧
    adtsNone.Ready ∧ adtsNone.posN + 7 ≤ adtsNone.endN ∧ ¬ adtsNone.frameAt adtsNone.posN :=
  ⟨⟨ready_st (by decide), by decide, by decide⟩, ready_st (by decide), by decide, by decide⟩

theorem witness_AdtsHeaderFields :
    adtsWhole.capN ≤ 65536 ∧ (∃ t, exec .adtsFind adtsWhole = .next t ∧ t.code = 2) ∧
    ∃ t, exec .adtsFind adtsPart = .next t ∧ t.code = 3 :=
  ⟨by decide, code_of (by decide), code_of (by decide)⟩

/-- V-ADTS-P: each of the four profile values. -/
theorem witness_AdtsProfileClass :
    ∀ b ∈ ([0x10, 0x50, 0x90, 0xD0] : List Byte),
      (adtsIndex b).capN ≤ 65536 ∧ ∃ t, exec .adtsFind (adtsIndex b) = .next t ∧ t.code = 2 := by
  intro b hb
  fin_cases hb <;> exact ⟨by decide, code_of (by decide)⟩

/-- V-ADTS-F: the indices 0, 1, 10, 11 and 12, where the clauses meet. -/
theorem witness_AdtsFrequency :
    ∀ b ∈ ([0x40, 0x44, 0x68, 0x6C, 0x70] : List Byte),
      (adtsIndex b).capN ≤ 65536 ∧ ∃ t, exec .adtsFind (adtsIndex b) = .next t ∧ t.code = 2 := by
  intro b hb
  fin_cases hb <;> exact ⟨by decide, code_of (by decide)⟩

/-- The header of `F9` alone, and then the whole of `F9` moved to another place. -/
theorem witness_RefillCompletesTheFrame :
    adtsPart.capN ≤ 65536 ∧
    (∃ t, exec .adtsFind adtsPart = .next t ∧ t.code = 3 ∧
      (st 5 f9 5 14).posN + t.resultN 2 ≤ (st 5 f9 5 14).endN ∧
      ∀ k, k < 7 → (st 5 f9 5 14).byte ((st 5 f9 5 14).posN + k) = adtsPart.byte (t.resultN 1 + k)) ∧
    (st 5 f9 5 14).Ready ∧ (st 5 f9 5 14).freq = adtsPart.freq := by
  refine ⟨by decide, ?_, ready_st (by decide), rfl⟩
  obtain ⟨t, ht, hp⟩ := nextWith_spec (r := exec .adtsFind adtsPart)
    (p := fun t => t.code == 3 && t.resultN 1 == 0 && t.resultN 2 == 9) (by decide)
  simp only [Bool.and_eq_true, beq_iff_eq] at hp
  refine ⟨t, ht, hp.1.1, ?_, ?_⟩
  · rw [hp.2]; decide
  · rw [hp.1.2]; decide

/-- V-RTP-2: exactly 12 bytes. -/
theorem witness_RtpDecodesTheHeader : (st 0 rtph 0 12).Ready ∧ (st 0 rtph 0 12).posN + 12 ≤ (st 0 rtph 0 12).endN :=
  ⟨ready_st (by decide), by decide⟩

/-- V-RTP-3 and V-RTP-4: 11 bytes, and none. -/
theorem witness_RtpTruncatedHeader :
    ((st 0 rtph 0 11).Ready ∧ (st 0 rtph 0 11).endN < (st 0 rtph 0 11).posN + 12) ∧
    (st 0 [] 0 0).Ready ∧ (st 0 [] 0 0).endN < (st 0 [] 0 0).posN + 12 :=
  ⟨⟨ready_st (by decide), by decide⟩, ready_st (by decide), by decide⟩

theorem witness_RtpHeaderFields :
    (st 0 rtph 0 12).capN ≤ 65536 ∧ ∃ t, exec .rtpDec (st 0 rtph 0 12) = .next t ∧ t.code = 1 :=
  ⟨by decide, code_of (by decide)⟩

/-- V-RTP-PT: the payload types where the clauses meet. -/
theorem witness_RtpPayloadClass :
    ∀ pt ∈ ([18, 19, 30, 31, 32, 33, 34, 35, 95, 96, 97, 127] : List Byte),
      ∃ t, exec .rtpDec (rtpOf pt) = .next t ∧ t.code = 1 := by
  intro pt h
  fin_cases h <;> exact code_of (by decide)

theorem witness_TsScanCountsTheLeadingStrides :
    State.reset.capN ≤ 65536 ∧ State.reset.windowOk ∧ (∃ t, exec .tsScan State.reset = .next t) ∧
    tsBad.windowOk ∧ ∃ t, exec .tsScan tsBad = .next t :=
  ⟨by decide, by decide, next_of (by decide), by decide, _, by rw [exec, execTsScan, ready_tsBad.run]⟩

/-- V-TS-5: the first stride is bad. -/
theorem witness_TsScanStopsAtTheFirstMismatch :
    tsBad.Ready ∧ tsBad.posN + 188 * 0 + 188 ≤ tsBad.endN ∧
    (∀ k, k < 0 → tsBad.byte (tsBad.posN + 188 * k) = 0x47) ∧ tsBad.byte (tsBad.posN + 188 * 0) ≠ 0x47 :=
  ⟨ready_tsBad, by decide, by decide, by decide⟩

/-- V-TS-9 and V-TS-3: a remainder after one stride, and an empty window. -/
theorem witness_TsScanDiscardsTheRemainder :
    (tsShort.Ready ∧ tsShort.posN + 188 * 1 ≤ tsShort.endN ∧ tsShort.endN < tsShort.posN + 188 * 1 + 188 ∧
      ∀ k, k < 1 → tsShort.byte (tsShort.posN + 188 * k) = 0x47) ∧
    (st 0 [] 0 0).Ready ∧ (st 0 [] 0 0).posN + 188 * 0 ≤ (st 0 [] 0 0).endN ∧
      (st 0 [] 0 0).endN < (st 0 [] 0 0).posN + 188 * 0 + 188 :=
  ⟨⟨ready_tsShort, by decide, by decide, by decide⟩, ready_st (by decide), by decide, by decide⟩

theorem witness_HostMovCopiesARegister :
    (withHost ((HostStmt.mov .pos (.res 0)).expand ++ [.reset])).host
      = (HostStmt.mov .pos (.res 0)).expand ++ [.reset] ∧
    (withHost ((HostStmt.mov .wend .cap).expand ++ [.reset])).host
      = (HostStmt.mov .wend .cap).expand ++ [.reset] := by decide

/-- Two bytes at the top of BUF. -/
theorem witness_HostWbStoresItsBytes :
    (withHost ((HostStmt.wb 65534 [1, 2]).expand ++ [.reset])).host
      = (HostStmt.wb 65534 [1, 2]).expand ++ [.reset] ∧
    65534 + [(1 : Byte), 2].length ≤ (withHost ((HostStmt.wb 65534 [1, 2]).expand ++ [.reset])).capN := by decide

/-- A move by one byte, its source and destination overlapping. -/
theorem witness_HostCpMovesBytes :
    ({ st 1 [1, 2, 3] 0 0 with host := (HostStmt.cp 0 1 3).expand ++ [.reset] } : State).host
      = (HostStmt.cp 0 1 3).expand ++ [.reset] ∧ 0 ≤ 1 ∧
    1 + 3 ≤ ({ st 1 [1, 2, 3] 0 0 with host := (HostStmt.cp 0 1 3).expand ++ [.reset] } : State).capN ∧
    ({ st 1 [1, 2, 3] 0 0 with host := (HostStmt.cp 0 1 3).expand ++ [.reset] } : State).written 1 (1 + 3) :=
  ⟨rfl, by decide, by decide, fun b h1 h2 => read_bytesAt 1 [1, 2, 3] b h1 h2⟩

theorem witness_InvariantHoldsAtReset :
    (Config.mk 8191 Config.default.freq).wf ∧ (Config.mk 65536 Config.default.freq).wf := by decide

/-- The state after reset, with a command to come. -/
theorem witness_StepKeepsTheInvariant :
    (withHost [.regWrite 0 (.imm 2#32)]).Inv ∧ ∃ t, step (withHost [.regWrite 0 (.imm 2#32)]) = .next t :=
  ⟨⟨by decide, by decide, by decide, by decide, rfl, fun _ => rfl⟩, next_of (by decide)⟩

end Sys2Proof.Tests
end

section
/-! The statements of family 00_scope: the invariant of the SFB (O51, O52) and adjacent fields (O29). -/

namespace Sys2Proof.Machine

section
variable {s t : State} {i : Instr} {c : StatusCode} {rs : List Nat}

/-! ### The answers of a command -/

/-- The codes a command ends in, with the results it may report beside them: none with TRUNCATED and ERR_RANGE
(R22, R23). -/
inductive Answers : Instr → StatusCode → List Nat → Prop where
  | ok {i : Instr} (h : i ≠ .adtsFind) (rs : List Nat) : Answers i .ok rs
  | found (rs : List Nat) : Answers .adtsFind .found rs
  | needMore (rs : List Nat) : Answers .adtsFind .needMore rs
  | noSync (rs : List Nat) : Answers .adtsFind .noSync rs
  | truncated : Answers .rtpDec .truncated []
  | errRange (i : Instr) : Answers i .errRange []

/-- A command that reads its whole window and does not fault ends in ERR_RANGE or goes on with its rest. -/
theorem window_next {r : Result} (h : withWindow s (readingWindow s r) = .next t) :
    t = complete .errRange [] s ∨ r = .next t := by
  rcases window_cases s r with ⟨-, he⟩ | ⟨-, -, he⟩ | ⟨-, b, -, -, -, he⟩
  · rw [he] at h; cases h; exact .inl rfl
  · exact .inr (he.symm.trans h)
  · rw [he] at h; cases h

/-- `exec_next` with the code and the results that go with the command. -/
theorem exec_answers (h : exec i s = .next t) : ∃ c rs, Answers i c rs ∧ t = complete c rs s := by
  cases i with
  | bfx width bitoff =>
    change execBfx width bitoff s = .next t at h
    rcases execBfx_cases width bitoff s with ⟨-, he⟩ | ⟨-, -, -, he⟩ | ⟨-, -, b, -, -, -, he⟩ <;>
      rw [he] at h <;> cases h
    · exact ⟨_, _, .errRange _, rfl⟩
    · exact ⟨_, _, .ok (by nofun) _, rfl⟩
  | adtsFind =>
    rcases window_next h with rfl | h
    · exact ⟨_, _, .errRange _, rfl⟩
    · cases h
      cases scan s (s.endN - s.posN) s.posN with
      | noSync p => exact ⟨_, _, .noSync _, rfl⟩
      | header p =>
        simp only [adtsReport]
        split
        · exact ⟨_, _, .needMore _, rfl⟩
        · exact ⟨_, _, .found _, rfl⟩
  | rtpDec =>
    rcases window_next h with rfl | h
    · exact ⟨_, _, .errRange _, rfl⟩
    · split at h <;> cases h
      · exact ⟨_, _, .truncated, rfl⟩
      · exact ⟨_, _, .ok (by nofun) _, rfl⟩
  | tsScan =>
    rcases window_next h with rfl | h
    · exact ⟨_, _, .errRange _, rfl⟩
    · cases h
      exact ⟨_, _, .ok (by nofun) _, rfl⟩

/-! ### STATUS after a command -/

/-- The low four bits of a status word are its code (R21). -/
theorem slice_statusWord {opc : Nat} (_ : opc < 16) (c : StatusCode) :
    slice (statusWord opc c.code).toNat 3 0 = c.code := by
  have hc : c.code < 16 := by cases c <;> decide
  simp only [slice, statusWord, BitVec.toNat_ofNat]
  omega

/-- `STATUS.CODE` after a command is the code it ended in (R12, R21). -/
@[simp] theorem complete_code : (complete c rs s).code = c.code :=
  slice_statusWord (slice_lt s.cmd.toNat 3 0) c

/-- A code a command ends in goes with the word in CMD. -/
theorem Answers.outcomeFits (h : Answers i c rs) (hd : decode s.cmd = .ok i) :
    (complete c rs s).outcomeFits := by
  simp only [State.outcomeFits, complete_code, complete_cmd]
  cases h with
  | ok hi => exact ⟨i, hd, hi⟩
  | found => exact hd
  | needMore => exact hd
  | noSync => exact hd
  | truncated => exact hd
  | errRange => exact ⟨i, hd⟩

/-- A code from TRUNCATED on comes without results (R23), and no command ends in IDLE (R22). -/
theorem Answers.clear (h : Answers i c rs) (hc : c.code = 0 ∨ 5 ≤ c.code) : rs = [] := by
  cases h with
  | truncated => rfl
  | errRange => rfl
  | _ => simp [StatusCode.code] at hc

/-- Every next state of an engine step is made by `complete`, with a code that goes with the word in CMD and no
results beside an error. -/
theorem issue_outcome (h : issue s = .next t) :
    ∃ c rs, t = complete c rs s ∧ t.outcomeFits ∧ (c.code = 0 ∨ 5 ≤ c.code → rs = []) := by
  cases hd : decode s.cmd with
  | error e =>
    rw [issue_illegal hd] at h
    cases h
    refine ⟨.errOpcode, [], rfl, ?_, fun _ => rfl⟩
    simp only [raise_eq_complete, State.outcomeFits, complete_code, complete_cmd]
    exact ⟨e, hd⟩
  | ok i =>
    obtain ⟨c, rs, ha, rfl⟩ := exec_answers (issue_command hd ▸ h)
    exact ⟨c, rs, rfl, ha.outcomeFits hd, ha.clear⟩

/-! ### The invariant -/

/-- The invariant holds where CMD, STATUS and RES have their reset values and BUF is empty (R30). -/
theorem inv_of_resetValues (hcmd : s.cmd = 0#32) (hstatus : s.status = 0#32) (hres : s.res = noResults)
    (hbuf : s.buf = []) (hcap : 8191 ≤ s.capN ∧ s.capN ≤ 65536) : s.Inv where
  canonical := by simp [hbuf]
  inside := by simp [hbuf]
  capacity := hcap
  status := by simp [State.code, hcmd, hstatus, opcodeOf, slice, statusWord]
  outcome := by simp [State.outcomeFits, State.code, hcmd, hstatus, slice]
  clear _ := hres

/-- The invariant speaks of CMD, STATUS, CAP, RES and BUF alone. -/
theorem State.Inv.congr (h : s.Inv) (hcmd : t.cmd = s.cmd) (hstatus : t.status = s.status)
    (hcap : t.cap = s.cap) (hres : t.res = s.res) (hbuf : t.buf = s.buf) : t.Inv := by
  obtain ⟨hcanon, hin, hcapacity, hst, hout, hclear⟩ := h
  constructor <;> simpa only [State.outcomeFits, State.code, State.capN, hcmd, hstatus, hcap, hres, hbuf]

theorem applyReset_inv (h : s.Inv) : (applyReset s).Inv :=
  inv_of_resetValues rfl rfl rfl rfl h.capacity

/-- A write of any register but CMD keeps the invariant: POS and END are free (R18, R19). -/
theorem storeReg_inv (h : s.Inv) {off : Nat} (h0 : off ≠ 0) (v : Word) : (storeReg off v s).Inv :=
  h.congr (storeReg_cmd_other h0 v s) (by simp) (by simp) (by simp) (by simp)

theorem bufRead_inv (h : s.Inv) (a : Nat) : (bufRead a s).Inv := by
  rw [bufRead_frame]
  exact h.congr rfl rfl rfl rfl rfl

/-- A buffer write keeps BUF canonical, and is discarded outside BUF (R33). -/
theorem bufWrite_inv (h : s.Inv) (a : Nat) (v : Byte) : (bufWrite a v s).Inv := by
  unfold bufWrite
  split
  · next ha =>
    exact { h with canonical := write_wf h.canonical a v, inside := write_below h.inside v ha }
  · exact h

/-- A write of CMD and the command it issues keep the invariant, whatever STATUS and RES held (R12, R17). -/
theorem issue_inv (h : s.Inv) {v : Word} (hi : issue { s with cmd := v } = .next t) : t.Inv := by
  obtain ⟨c, rs, rfl, hfits, hclear⟩ := issue_outcome hi
  exact {
    canonical := h.canonical
    inside := h.inside
    capacity := h.capacity
    status := by simp
    outcome := hfits
    clear := fun hc => by rw [complete_code] at hc; rw [hclear hc]; rfl }

theorem perform_inv (h : s.Inv) {e : HostEvent} (hp : perform e s = .next t) : t.Inv := by
  rcases perform_next hp with ⟨off, -, rfl⟩ | ⟨d, -, hi⟩ | ⟨off, d, -, h0, rfl⟩ | ⟨a, -, rfl⟩ |
    ⟨a, d, -, rfl⟩ | ⟨off, -, rfl⟩ | ⟨off, d, -, rfl⟩ | ⟨-, rfl⟩
  · exact h.congr rfl rfl rfl rfl rfl
  · exact issue_inv h hi
  · exact storeReg_inv h h0 _
  · exact bufRead_inv h a
  · exact bufWrite_inv h a _
  · exact h.congr rfl rfl rfl rfl rfl
  · exact h
  · exact applyReset_inv h

end

/-- Settles O52: a step is one host event (`step_next`), and each event keeps the invariant (`perform_inv`). -/
theorem stepKeepsTheInvariant : Obligations.StepKeepsTheInvariant := by
  intro s t h hs
  rcases step_next hs with ⟨-, rfl⟩ | ⟨e, rest, -, hp⟩
  · exact h
  · have hrest : State.Inv { s with host := rest } := h.congr rfl rfl rfl rfl rfl
    exact perform_inv hrest hp

/-- Settles O29, by induction on the width of the second field: one bit more shifts both sides alike. -/
theorem adjacentFieldsJoin : Obligations.AdjacentFieldsJoin := by
  intro s q w₁ w₂
  induction w₂ with
  | zero => simp
  | succ w₂ ih =>
    calc field s q (w₁ + (w₂ + 1))
        = field s q (w₁ + w₂) * 2 + bitAt s (q + (w₁ + w₂)) := field_succ s q (w₁ + w₂)
      _ = field s q w₁ * 2 ^ (w₂ + 1) + (field s (q + w₁) w₂ * 2 + bitAt s (q + w₁ + w₂)) := by
          rw [ih, Nat.pow_succ, Nat.add_assoc q]; ring
      _ = field s q w₁ * 2 ^ (w₂ + 1) + field s (q + w₁) (w₂ + 1) := by rw [field_succ]

/-- Settles O51: every BUF_CAP of R5 fits in CAP, and the rest is R30. -/
theorem invariantHoldsAtReset : Obligations.InvariantHoldsAtReset := by
  intro c hc
  have hcap : (State.resetWith c).capN = c.bufCap := by
    simp only [State.capN, resetWith_cap, BitVec.toNat_ofNat]
    exact Nat.mod_eq_of_lt (by have := hc.2; omega)
  exact inv_of_resetValues rfl rfl rfl rfl (hcap ▸ hc)

end Sys2Proof.Machine
end

section
/-! The statements of family 10_state: the registers and what a command, a step and a run leave in them (O6 to O11,
O15, O16, O18, O19, O22), and the inputs of a command's results (O23). -/

namespace Sys2Proof.Machine

section
variable {s t : State} {i : Instr} {c : StatusCode} {rs : List Nat}

/-! ### The register map -/

/-- Every register is word aligned and below 0x40 (R15, R24). -/
theorem offset_mod_four_lt (r : Reg) : r.offset % 4 = 0 ∧ r.offset < 0x40 := by
  cases r with
  | res k => simp only [Reg.offset]; omega
  | _ => decide

theorem ofOffset_eq_none {off : Nat} (h : off % 4 ≠ 0 ∨ 0x40 ≤ off) : Reg.ofOffset off = none := by
  cases hr : Reg.ofOffset off with
  | none => rfl
  | some r =>
    have := offset_mod_four_lt r
    rw [← offset_of_ofOffset hr] at this
    omega

theorem regRead_of_none {off : Nat} (h : Reg.ofOffset off = none) (s : State) : regRead s off = 0#32 := by
  rw [regRead, h]

theorem regWrite_of_none {off : Nat} (h : Reg.ofOffset off = none) (v : Word) (s : State) :
    regWrite off v s = .next s := by
  rw [regWrite, storeReg, h]; rfl

@[simp] theorem regRead_offset (s : State) (r : Reg) : regRead s r.offset = s.reg r := by
  rw [regRead, ofOffset_offset]

/-- A write of a read-only register has no effect (R16). -/
theorem regWrite_readOnly {r : Reg} (h : r = .status ∨ r = .cap ∨ ∃ k, r = .res k) (v : Word) (s : State) :
    regWrite r.offset v s = .next s := by
  rw [regWrite, storeReg, ofOffset_offset]
  rcases h with rfl | rfl | ⟨k, rfl⟩ <;> rfl

/-- A step whose event writes CMD runs the command the word decodes to (R17, R43). -/
theorem step_writesCommand {d : WordSource} {rest : List HostEvent} (h : s.host = .regWrite 0 d :: rest)
    (hd : decode (d.value s) = .ok i) : step s = exec i { s with host := rest, cmd := d.value s } := by
  rw [step_cons h]
  exact issue_command (s := { s with host := rest, cmd := d.value s }) hd

/-- A number the opcode table's decoder reads is a command's word (R47). -/
theorem decode_of_tableWord {nbits w : Nat} (h : decodeTableWord nbits w = some i) :
    decode (commandWord nbits w) = .ok i := by
  unfold decodeTableWord at h
  split at h
  · cases hd : decode (commandWord nbits w) with
    | error e => rw [hd] at h; cases h
    | ok j => rw [hd] at h; cases h; rfl
  · cases h

/-! ### The reset values -/

/-- Every `BUF_CAP` of R5 fits in CAP (R20). -/
theorem resetWith_cap_toNat {k : Config} (h : k.wf) : (State.resetWith k).cap.toNat = k.bufCap := by
  obtain ⟨-, hmax⟩ := h
  rw [resetWith_cap, BitVec.toNat_ofNat]
  exact Nat.mod_eq_of_lt (by omega)

@[simp] theorem resetWith_code (k : Config) : (State.resetWith k).code = 0 := by simp [State.code, slice]
@[simp] theorem resetWith_opc (k : Config) : (State.resetWith k).opc = 0 := by simp [State.opc, slice]

theorem noResults_get (k : Fin 8) : noResults[k] = 0#32 := by
  revert k; decide

/-! ### What a command leaves in STATUS and RES -/

theorem opcodeOf_eq (w : Word) : opcodeOf w = w.toNat % 16 := by simp [opcodeOf, slice]

theorem StatusCode.code_le (c : StatusCode) : c.code ≤ 7 := by cases c <;> decide

/-- STATUS after a command is the word's low four bits and the code, and nothing above (R12, R21). -/
theorem complete_status_toNat : (complete c rs s).status.toNat = s.cmd.toNat % 16 * 16 + c.code := by
  have hc := c.code_le
  rw [complete_status, statusWord, opcodeOf_eq, BitVec.toNat_ofNat]
  omega

theorem complete_opc : (complete c rs s).opc = s.cmd.toNat % 16 := by
  have hc := c.code_le
  rw [State.opc, slice, complete_status_toNat]
  omega

/-- Each result of a command is its argument of `complete`, or 0 where there is none (R12). -/
theorem complete_resN :
    (complete c rs s).resN = (List.range 8).map fun k => (zext32 (rs.getD k 0)).toNat := rfl

theorem complete_resultN (k : Fin 8) : (complete c rs s).resultN k = (zext32 (rs.getD k 0)).toNat := by
  fin_cases k <;> rfl

/-- "Omitted trailing arguments are 0" (R12, R23). -/
theorem complete_resN_drop {n : Nat} (h : rs.length ≤ n) :
    (complete c rs s).resN.drop n = List.replicate (8 - n) 0 := by
  refine List.eq_replicate_iff.2 ⟨by simp [complete_resN], fun x hx => ?_⟩
  rw [complete_resN, ← List.map_drop, List.mem_map] at hx
  obtain ⟨k, hk, rfl⟩ := hx
  have hnk : n ≤ k := by
    obtain ⟨j, hj, rfl⟩ := List.mem_iff_getElem.1 hk
    simp
  rw [List.getD_eq_default _ _ (h.trans hnk)]
  rfl

theorem raise_ends (c : StatusCode) (s : State) : s.Ends (raise c s) c.code [0, 0, 0, 0, 0, 0, 0, 0] :=
  ⟨complete_status_toNat, complete_resN_drop (rs := []) (Nat.zero_le 0), rfl⟩

/-- A command writes STATUS and RES and nothing else (R16, R85). -/
theorem exec_frame (h : exec i s = .next t) : t = { s with status := t.status, res := t.res } := by
  obtain ⟨c, rs, -, rfl⟩ := exec_next h
  rfl

/-- A window that fails the check of R43 ends every command in ERR_RANGE, with results 0. -/
theorem exec_badWindow_ends (i : Instr) (h : ¬ s.windowOk) :
    ∃ t, exec i s = .next t ∧ s.Ends t 6 [0, 0, 0, 0, 0, 0, 0, 0] :=
  ⟨raise .errRange s, exec_badWindow i h, raise_ends .errRange s⟩

/-- On a legal window, a command that reads its whole window and does not fault goes on with its rest. -/
theorem windowOk_next (hw : s.windowOk) {r : Result} (h : withWindow s (readingWindow s r) = .next t) :
    r = .next t := by
  rcases window_cases s r with ⟨hbad, -⟩ | ⟨-, -, he⟩ | ⟨-, b, -, -, -, he⟩
  · exact absurd hw hbad
  · exact he.symm.trans h
  · rw [he] at h; cases h

theorem adtsReport_noSync_code (s : State) (p : Nat) : (adtsReport s (.noSync p)).code = 4 := complete_code

theorem adtsReport_header_code (s : State) (p : Nat) :
    (adtsReport s (.header p)).code = 2 ∨ (adtsReport s (.header p)).code = 3 := by
  simp only [adtsReport]
  split
  · exact .inr complete_code
  · exact .inl complete_code

/-- The codes that go with each command, by number (R22). -/
theorem Answers.code_facts (h : Answers i c rs) :
    1 ≤ c.code ∧ c.code ≤ 6 ∧ (c.code = 1 → i ≠ .adtsFind) ∧
    (c.code = 2 ∨ c.code = 3 ∨ c.code = 4 → i = .adtsFind) ∧ (c.code = 5 → i = .rtpDec) := by
  cases h with
  | ok hi => simp [StatusCode.code, hi]
  | _ => simp [StatusCode.code]

/-- The range failures of a command: its window's, and of BFX the width's and the field's end (R43, R51, R52). -/
theorem exec_errRange_iff (h : exec i s = .next t) :
    t.code = 6 ↔ ¬ s.windowOk ∨ ∃ width bitoff, i = .bfx width bitoff ∧
      (width = 0 ∨ 32 < width ∨ 8 * s.endN < 8 * s.posN + bitoff + width) := by
  by_cases hw : s.windowOk
  · rw [or_iff_right (not_not_intro hw)]
    cases i with
    | bfx width bitoff =>
      change execBfx width bitoff s = .next t at h
      simp only [Instr.bfx.injEq, and_assoc, exists_and_left, exists_eq_left']
      rcases execBfx_cases width bitoff s with ⟨hbad, he⟩ | ⟨-, hfit, -, he⟩ | ⟨-, -, b, -, -, -, he⟩ <;>
        rw [he] at h <;> cases h
      · have hfit : ¬ bfxFits width bitoff s := fun hf => hbad ⟨hw, hf⟩
        refine ⟨fun _ => ?_, fun _ => complete_code⟩
        unfold bfxFits at hfit
        omega
      · rw [complete_code]
        exact ⟨nofun, fun _ => by omega⟩
    | adtsFind =>
      have ht : adtsReport s _ = t := Host.Outcome.next.inj (windowOk_next hw h)
      simp only [reduceCtorEq, false_and, exists_false, iff_false, ← ht]
      cases scan s (s.endN - s.posN) s.posN with
      | noSync p => rw [adtsReport_noSync_code]; omega
      | header p => have := adtsReport_header_code s p; omega
    | rtpDec =>
      have ht := windowOk_next hw h
      split at ht <;> cases ht <;> simp [rtpReport, raise_eq_complete, StatusCode.code]
    | tsScan =>
      have ht : tsReport s _ = t := Host.Outcome.next.inj (windowOk_next hw h)
      simp [← ht, tsReport, StatusCode.code]
  · rw [exec_badWindow i hw] at h
    cases h
    simp [hw, raise_eq_complete, StatusCode.code]

/-! ### What a step and a run leave unchanged -/

/-- What a host event keeps: the host's other events, CAP (R20), STATUS but in a write of CMD and a reset (R21), and
every byte of BUF but in a host write to it and a reset (R26). -/
structure EventKeeps (e : HostEvent) (s t : State) : Prop where
  host : t.host = s.host
  cap : t.cap = s.cap
  status : (∀ d, e ≠ .regWrite 0 d) → e ≠ .reset → t.status = s.status
  byte : ∀ a, (∀ d, e ≠ .bufWrite a d) → e ≠ .reset → t.buf.read a = s.buf.read a

theorem bufWrite_read_other {a b : Nat} (h : b ≠ a) (v : Byte) (s : State) :
    (bufWrite a v s).buf.read b = s.buf.read b := by
  unfold bufWrite
  split
  · exact read_write_other _ _ h
  · rfl

theorem perform_keeps {e : HostEvent} (h : perform e s = .next t) : EventKeeps e s t := by
  rcases perform_next h with ⟨off, -, rfl⟩ | ⟨d, rfl, hi⟩ | ⟨off, d, -, -, rfl⟩ | ⟨a, -, rfl⟩ |
    ⟨a, d, rfl, rfl⟩ | ⟨off, -, rfl⟩ | ⟨off, d, -, rfl⟩ | ⟨rfl, rfl⟩
  · exact ⟨rfl, rfl, fun _ _ => rfl, fun _ _ _ => rfl⟩
  · obtain ⟨c, rs, -, rfl⟩ := issue_next hi
    exact ⟨rfl, rfl, fun hcmd _ => absurd rfl (hcmd d), fun _ _ _ => rfl⟩
  · exact ⟨by simp, by simp, fun _ _ => by simp, fun _ _ _ => by simp⟩
  · rw [bufRead_frame]
    exact ⟨rfl, rfl, fun _ _ => rfl, fun _ _ _ => rfl⟩
  · refine ⟨?_, ?_, fun _ _ => ?_, fun b hwrite _ => bufWrite_read_other ?_ _ s⟩
    · rw [bufWrite_frame]
    · rw [bufWrite_frame]
    · rw [bufWrite_frame]
    · rintro rfl; exact hwrite d rfl
  · exact ⟨rfl, rfl, fun _ _ => rfl, fun _ _ _ => rfl⟩
  · exact ⟨rfl, rfl, fun _ _ => rfl, fun _ _ _ => rfl⟩
  · exact ⟨rfl, rfl, fun _ hreset => absurd rfl hreset, fun _ _ hreset => absurd rfl hreset⟩

/-- A run that goes on is a step that goes on and a run from there (R98). -/
theorem run_succ_next {k : Nat} (h : run (k + 1) s = .next t) :
    ∃ s', step s = .next s' ∧ run k s' = .next t := by
  rw [run] at h
  cases hs : step s with
  | next s' => rw [hs] at h; exact ⟨s', rfl, h⟩
  | fault f => rw [hs] at h; cases h
  | refused r => rw [hs] at h; cases h

/-- Over a run, a byte of BUF changes only when a host write to it or a reset is among its events (R26). -/
theorem run_buf_read {k a : Nat} (h : run k s = .next t)
    (hev : ∀ e ∈ s.host.take k, e ≠ .reset ∧ ∀ d, e ≠ .bufWrite a d) : t.buf.read a = s.buf.read a := by
  induction k generalizing s with
  | zero => cases h; rfl
  | succ k ih =>
    obtain ⟨s', hs, hrun⟩ := run_succ_next h
    rcases step_next hs with ⟨hnil, rfl⟩ | ⟨e, rest, hhost, hp⟩
    · exact ih hrun (by simp [hnil])
    · rw [hhost, List.take_succ_cons, List.forall_mem_cons] at hev
      obtain ⟨⟨hreset, hwrite⟩, hrest⟩ := hev
      have hkeeps := perform_keeps hp
      have hrest' : s'.host = rest := hkeeps.host
      exact (ih hrun (by rwa [hrest'])).trans (hkeeps.byte a hwrite hreset)

/-! ### What a command's answer depends on (R31) -/

/-- Two states alike in the inputs of a command: its word, the window, the parameters, and the window's bytes. -/
structure State.SameInputs (s t : State) : Prop where
  cmd : s.cmd = t.cmd
  pos : s.pos = t.pos
  wend : s.wend = t.wend
  cap : s.cap = t.cap
  freq : s.freq = t.freq
  bytes : ∀ a, s.posN ≤ a → a < s.endN → s.buf.read a = t.buf.read a

/-- The same answer given in another state: its STATUS and results there, or the same stop. -/
def answerIn (t : State) : Result → Result
  | .next s' => .next { t with status := s'.status, res := s'.res }
  | .fault f => .fault f
  | .refused r => .refused r

theorem answerIn_complete (hcmd : s.cmd = t.cmd) (c : StatusCode) (rs : List Nat) :
    answerIn t (.next (complete c rs s)) = .next (complete c rs t) := by
  simp only [answerIn, complete, hcmd]

theorem answerIn_raise (hcmd : s.cmd = t.cmd) (c : StatusCode) :
    answerIn t (.next (raise c s)) = .next (raise c t) := answerIn_complete hcmd c []

namespace State.SameInputs

theorem posN_eq (h : s.SameInputs t) : s.posN = t.posN := congrArg BitVec.toNat h.pos
theorem endN_eq (h : s.SameInputs t) : s.endN = t.endN := congrArg BitVec.toNat h.wend
theorem capN_eq (h : s.SameInputs t) : s.capN = t.capN := congrArg BitVec.toNat h.cap

theorem memRead_eq (h : s.SameInputs t) {a : Nat} (hlo : s.posN ≤ a) (hhi : a < s.endN) :
    memRead s a = memRead t a := by
  rw [memRead, memRead, h.bytes a hlo hhi]

/-- A field inside the window is the same in both states (R53). -/
theorem field_eq (h : s.SameInputs t) {q w : Nat} (hlo : 8 * s.posN ≤ q) (hw : 1 ≤ w)
    (hhi : q + w ≤ 8 * s.endN) : field s q w = field t q w :=
  field_congr_bytes fun a ha hb => byte_congr (h.bytes a (by omega) (by omega))

theorem withWindow_eq (h : s.SameInputs t) {r₁ r₂ : Result} (hr : s.windowOk → r₂ = answerIn t r₁) :
    withWindow t r₂ = answerIn t (withWindow s r₁) := by
  have hiff : t.windowOk ↔ s.windowOk := by rw [State.windowOk, State.windowOk, h.posN_eq, h.endN_eq, h.capN_eq]
  by_cases hw : s.windowOk
  · rw [withWindow_ok hw, withWindow_ok (hiff.2 hw), hr hw]
  · rw [withWindow_bad hw, withWindow_bad (mt hiff.1 hw), answerIn_raise h.cmd]

/-- A footprint inside the window has the same lowest unwritten byte in both states (R100). -/
theorem firstUnwritten_eq (h : s.SameInputs t) {a n : Nat} (hlo : s.posN ≤ a) (hhi : a + n ≤ s.endN) :
    firstUnwritten s.buf a n = firstUnwritten t.buf a n := by
  induction n generalizing a with
  | zero => rfl
  | succ n ih => rw [firstUnwritten, firstUnwritten, h.bytes a hlo (by omega), ih (by omega) (by omega)]

theorem reading_eq (h : s.SameInputs t) {a n : Nat} (hlo : s.posN ≤ a) (hhi : a + n ≤ s.endN) {r₁ r₂ : Result}
    (hr : r₂ = answerIn t r₁) : reading t a n r₂ = answerIn t (reading s a n r₁) := by
  rw [reading, reading, h.firstUnwritten_eq hlo hhi]
  cases firstUnwritten t.buf a n with
  | none => exact hr
  | some b => rfl

theorem readingWindow_eq (h : s.SameInputs t) (hw : s.windowOk) {r₁ r₂ : Result} (hr : r₂ = answerIn t r₁) :
    readingWindow t r₂ = answerIn t (readingWindow s r₁) := by
  obtain ⟨hle, -⟩ := hw
  rw [readingWindow, ← h.posN_eq, ← h.endN_eq]
  exact h.reading_eq (Nat.le_refl _) (by omega) hr

theorem accepts_eq (h : s.SameInputs t) {p : Nat} (hlo : s.posN ≤ p) (hhi : p + 7 ≤ s.endN) :
    accepts s p = accepts t p := by
  have hlen : frameLength s p = frameLength t p := h.field_eq (by omega) (by omega) (by omega)
  rw [accepts, accepts, isCandidate, isCandidate, h.memRead_eq hlo (by omega),
    h.memRead_eq (show s.posN ≤ p + 1 by omega) (by omega), hlen]

theorem scan_eq (h : s.SameInputs t) {rem p : Nat} (hlo : s.posN ≤ p) (hhi : p + rem ≤ s.endN) :
    scan s rem p = scan t rem p := by
  induction rem generalizing p with
  | zero => rfl
  | succ rem ih =>
    rw [scan, scan]
    by_cases h7 : rem + 1 < 7
    · rw [if_pos h7, if_pos h7]
    · rw [if_neg h7, if_neg h7, h.accepts_eq hlo (by omega), ih (by omega) (by omega)]

theorem walk_eq (h : s.SameInputs t) {full a : Nat} (c : Nat) (hlo : s.posN ≤ a) (hhi : a + 188 * full ≤ s.endN) :
    walk s full a c = walk t full a c := by
  induction full generalizing a c with
  | zero => rfl
  | succ full ih =>
    rw [walk, walk, h.memRead_eq hlo (by omega), ih _ (by omega) (by omega)]

/-- BFX reads the bytes of its field, and they lie in the window (R52, R100). -/
theorem execBfx_eq (h : s.SameInputs t) (width bitoff : Nat) :
    execBfx width bitoff t = answerIn t (execBfx width bitoff s) := by
  refine h.withWindow_eq fun _ => ?_
  rw [← h.posN_eq, ← h.endN_eq]
  by_cases hwidth : width = 0 ∨ 32 < width
  · rw [if_pos hwidth, if_pos hwidth, answerIn_raise h.cmd]
  · rw [if_neg hwidth, if_neg hwidth]
    by_cases hend : 8 * s.endN < 8 * s.posN + bitoff + width
    · rw [if_pos hend, if_pos hend, answerIn_raise h.cmd]
    · rw [if_neg hend, if_neg hend]
      refine h.reading_eq (Nat.le_refl _) (by omega) ?_
      rw [answerIn_complete h.cmd, h.field_eq (by omega) (by omega) (by omega)]

/-- The report of a header reads the 7 bytes of the header, and they lie in the window (R58, R64). -/
theorem adtsReport_eq (h : s.SameInputs t) {e : ScanEnd}
    (he : ∀ p, e = .header p → s.posN ≤ p ∧ p + 7 ≤ s.endN) :
    answerIn t (.next (adtsReport s e)) = .next (adtsReport t e) := by
  cases e with
  | noSync p => simp only [adtsReport, answerIn_complete h.cmd, h.posN_eq]
  | header p =>
    obtain ⟨hlo, hhi⟩ := he p rfl
    have hlen : frameLength s p = frameLength t p := h.field_eq (by omega) (by omega) (by omega)
    have ha : hdrA s p = hdrA t p := h.field_eq (by omega) (by omega) (by omega)
    have hb : hdrB s p = hdrB t p := h.field_eq (by omega) (by omega) (by omega)
    have hfreq : freqHz s p = freqHz t p := by rw [freqHz, freqHz, ha, h.freq]
    simp only [adtsReport, hlen, ha, hb, hfreq, h.endN_eq, h.posN_eq]
    split
    · rw [answerIn_complete h.cmd]
    · rw [answerIn_complete h.cmd]

theorem execAdtsFind_eq (h : s.SameInputs t) : execAdtsFind t = answerIn t (execAdtsFind s) := by
  refine h.withWindow_eq fun hw => h.readingWindow_eq hw ?_
  obtain ⟨hle, -⟩ := hw
  rw [h.adtsReport_eq, h.scan_eq (Nat.le_refl _) (by omega), h.posN_eq, h.endN_eq]
  intro p hp
  obtain ⟨hlo, hhi, -, -⟩ := scan_header hp
  omega

theorem execRtpDec_eq (h : s.SameInputs t) : execRtpDec t = answerIn t (execRtpDec s) := by
  refine h.withWindow_eq fun hw => h.readingWindow_eq hw ?_
  rw [← h.posN_eq, ← h.endN_eq]
  by_cases hlen : s.endN - s.posN < 12
  · rw [if_pos hlen, if_pos hlen, answerIn_raise h.cmd]
  · rw [if_neg hlen, if_neg hlen]
    simp only [rtpReport, answerIn_complete h.cmd, ← h.posN_eq, ← h.endN_eq]
    rw [h.field_eq (by omega) (by omega) (by omega), h.field_eq (q := 8 * s.posN + 16) (by omega) (by omega) (by omega),
      h.field_eq (q := 8 * s.posN + 32) (by omega) (by omega) (by omega),
      h.field_eq (q := 8 * s.posN + 64) (by omega) (by omega) (by omega)]

theorem execTsScan_eq (h : s.SameInputs t) : execTsScan t = answerIn t (execTsScan s) := by
  refine h.withWindow_eq fun hw => h.readingWindow_eq hw ?_
  obtain ⟨hle, -⟩ := hw
  simp only [tsReport, answerIn_complete h.cmd, ← h.posN_eq, ← h.endN_eq]
  rw [h.walk_eq 0 (Nat.le_refl _) (by omega)]

/-- A command answers alike in two states with the same inputs (R31). -/
theorem exec_eq (h : s.SameInputs t) (i : Instr) : exec i t = answerIn t (exec i s) := by
  cases i with
  | bfx width bitoff => exact h.execBfx_eq width bitoff
  | adtsFind => exact h.execAdtsFind_eq
  | rtpDec => exact h.execRtpDec_eq
  | tsScan => exact h.execTsScan_eq

/-- The engine step for the word in CMD answers alike in two states with the same inputs (R31, R43). -/
theorem issue_eq (h : s.SameInputs t) : issue t = answerIn t (issue s) := by
  cases hd : decode s.cmd with
  | error e =>
    rw [issue_illegal hd, issue_illegal (h.cmd ▸ hd), answerIn_raise h.cmd]
  | ok i => rw [issue_command hd, issue_command (h.cmd ▸ hd), h.exec_eq]

end State.SameInputs

/-- The engine does not read STATUS or RES (R16). -/
theorem exec_of_status_res (i : Instr) (s : State) (st : Word) (rs : Vector Word 8) :
    exec i { s with status := st, res := rs } = exec i s := by
  have hsame : s.SameInputs { s with status := st, res := rs } := ⟨rfl, rfl, rfl, rfl, rfl, fun _ _ _ => rfl⟩
  rw [hsame.exec_eq]
  cases h : exec i s with
  | next t => exact congrArg Host.Outcome.next (exec_frame h).symm
  | fault f => rfl
  | refused r => rfl

end

/-- Settles O8: the register map, the frame of a command, and the window check. -/
theorem endIsHeldAsWrittenAndBoundsEveryCommand : Obligations.EndIsHeldAsWrittenAndBoundsEveryCommand := by
  intro s v
  refine ⟨rfl, rfl, fun i t h => ?_, fun i hbad => exec_badWindow_ends i (by omega), fun c => rfl⟩
  rw [exec_frame h]

/-- Settles O9: no host event changes CAP (`perform_keeps`). -/
theorem capReadsBufCapForever : Obligations.CapReadsBufCapForever := by
  refine ⟨fun c hc => resetWith_cap_toNat hc, fun s => rfl, fun s v => rfl, fun s t h => ?_⟩
  rcases step_next h with ⟨-, rfl⟩ | ⟨e, rest, -, hp⟩
  · rfl
  · exact (perform_keeps hp).cap

/-- Settles O10: the register map, and the frame and the inputs of a command. -/
theorem readOnlyRegistersIgnoreWrites : Obligations.ReadOnlyRegistersIgnoreWrites := by
  intro s v
  refine ⟨regRead_offset s, fun r hr => regWrite_readOnly hr v s, fun off hoff => ?_, fun i t => exec_frame,
    fun i => exec_of_status_res i s⟩
  have hnone := ofOffset_eq_none (.inl hoff)
  exact ⟨regRead_of_none hnone s, regWrite_of_none hnone v s⟩

/-- Settles O15: the frame of a command, and an induction on the length of the run (`run_buf_read`). -/
theorem bytesChangeOnlyByHostWrites : Obligations.BytesChangeOnlyByHostWrites := by
  refine ⟨fun i s t h => ?_, fun k s t a => run_buf_read⟩
  rw [exec_frame h]

/-- Settles O18: every command ends in `complete`, and no event but a write of CMD and a reset writes STATUS. -/
theorem statusHoldsCodeAndOpcode : Obligations.StatusHoldsCodeAndOpcode := by
  refine ⟨fun s t w h => ?_, fun s t h hcmd hreset => ?_, fun s v => ⟨rfl, rfl⟩, fun c => rfl⟩
  · obtain ⟨c, rs, -, rfl⟩ := issue_next h
    have hc := c.code_le
    rw [complete_code, complete_status_toNat, complete_opc]
    exact ⟨rfl, rfl, by omega⟩
  · rcases step_next h with ⟨-, rfl⟩ | ⟨e, rest, hhost, hp⟩
    · rfl
    · exact (perform_keeps hp).status (fun d he => hcmd d rest (he ▸ hhost)) fun he => hreset rest (he ▸ hhost)

/-- Settles O19: the codes that go with each command (`exec_answers`), and when a range fails. -/
theorem statusCodesByCommand : Obligations.StatusCodesByCommand := by
  refine ⟨resetWith_code, fun s t w h => ?_⟩
  have hi : issue { s with cmd := w } = .next t := h
  cases hd : decode w with
  | error e =>
    rw [issue_illegal hd] at hi
    cases hi
    simp [raise_eq_complete, StatusCode.code]
  | ok i =>
    rw [issue_command hd] at hi
    have hsix := exec_errRange_iff hi
    obtain ⟨c, rs, ha, rfl⟩ := exec_answers hi
    obtain ⟨hlo, hhi, hok, hadts, hrtp⟩ := ha.code_facts
    simp only [Except.ok.injEq, exists_eq_left', reduceCtorEq, exists_false, iff_false]
    rw [complete_code] at hsix ⊢
    exact ⟨hlo, by omega, hok, hadts, hrtp, hsix, by omega⟩

/-- Settles O22: an error comes without results (`issue_outcome`), and the results past a command's last are 0. -/
theorem undefinedResultsAreZero : Obligations.UndefinedResultsAreZero := by
  refine ⟨fun s t w h hc => ?_, fun s t width bitoff h => ?_, fun s t h => ?_, fun s t h hc => ?_⟩
  · obtain ⟨c, rs, rfl, -, hclear⟩ := issue_outcome h
    rw [hclear (.inr (complete_code ▸ hc))]
    exact complete_resN_drop (rs := []) (Nat.zero_le 0)
  · change execBfx width bitoff s = .next t at h
    rcases execBfx_cases width bitoff s with ⟨-, he⟩ | ⟨-, -, -, he⟩ | ⟨-, -, b, -, -, -, he⟩ <;>
      rw [he] at h <;> cases h
    · exact complete_resN_drop (Nat.zero_le 3)
    · exact complete_resN_drop (Nat.le_refl 3)
  · rcases window_next h with rfl | h
    · exact complete_resN_drop (Nat.zero_le 4)
    · cases h
      exact complete_resN_drop (Nat.le_refl 4)
  · rcases window_next h with rfl | h
    · rw [complete_code] at hc; cases hc
    · have ht : adtsReport s _ = t := Host.Outcome.next.inj h
      rw [← ht] at hc ⊢
      cases hscan : scan s (s.endN - s.posN) s.posN with
      | noSync p =>
        exact ⟨complete_resultN 1, complete_resultN 2, complete_resultN 3, complete_resN_drop (Nat.le_refl 5)⟩
      | header p =>
        rw [hscan] at hc
        have := adtsReport_header_code s p
        omega

/-- Settles O23: the engine step answers alike in two states with the same inputs. -/
theorem resultsDependOnlyOnTheWindow : Obligations.ResultsDependOnlyOnTheWindow := by
  intro s₁ s₂ t₁ w hpos hwend hcap hfreq hbytes h
  have hsame : State.SameInputs { s₁ with cmd := w } { s₂ with cmd := w } :=
    ⟨rfl, hpos, hwend, hcap, hfreq, hbytes⟩
  have h₁ : issue { s₁ with cmd := w } = .next t₁ := h
  refine ⟨{ s₂ with cmd := w, status := t₁.status, res := t₁.res }, ?_, rfl, rfl⟩
  rw [regWrite_cmd, hsame.issue_eq, h₁]
  rfl

/-- Settles O6: the first event is a write of CMD, and the word it writes decodes. -/
theorem stepRunsTheDecodedCommand : Obligations.StepRunsTheDecodedCommand := by
  refine ⟨fun s d rest i => step_writesCommand, fun s nbits w i h => ?_, fun s rest i h hd => ?_, fun s => step_nil⟩
  · exact step_writesCommand (s := s.withFetchWord nbits w) (d := .imm (commandWord nbits w)) rfl (decode_of_tableWord h)
  · exact step_writesCommand (d := .imm (encode i)) h hd

/-- Settles O7: the register map, the frame of a command, and the window check: a legal window ends at or below
BUF_CAP, and so begins there. -/
theorem posIsHeldAsWritten : Obligations.PosIsHeldAsWritten := by
  intro s v
  refine ⟨rfl, rfl, fun i t h => ?_, fun i hv => exec_badWindow_ends i fun hw => ?_⟩
  · rw [exec_frame h]
  · have hle : v.toNat ≤ s.capN := hw.1.trans hw.2
    omega

/-- Settles O11: no register stands at these offsets. -/
theorem reservedOffsetsReadZero : Obligations.ReservedOffsetsReadZero := by
  intro s v off
  refine ⟨fun h => ?_, fun h => ?_⟩
  · have hnone : Reg.ofOffset off = none := by rcases h with rfl | rfl | rfl <;> rfl
    exact ⟨regRead_of_none hnone s, regWrite_of_none hnone v s⟩
  · have hnone := ofOffset_eq_none (.inr h)
    exact ⟨hnone, regRead_of_none hnone s, regWrite_of_none hnone v s⟩

/-- Settles O16: every field of the reset state is its value of R30, and `BUF_CAP` fits in CAP. -/
theorem resetStateHoldsTheResetValues : Obligations.ResetStateHoldsTheResetValues := fun c hc =>
  ⟨rfl, rfl, resetWith_code c, resetWith_opc c, rfl, rfl, noResults_get, resetWith_cap_toNat hc, read_nil⟩

end Sys2Proof.Machine
end

section
/-! The statements of family 20_memory: the host's buffer and register transactions as steps (O12 to O14), and a
command given twice (O25). -/

namespace Sys2Proof.Machine

section
variable {s t : State} {a : Nat}

/-! ### A buffer transaction by its address and the byte there (R33, R34) -/

theorem bufWrite_below (h : a < s.capN) (v : Byte) : bufWrite a v s = { s with buf := s.buf.write a v } := if_pos h

theorem bufWrite_above (h : s.capN ≤ a) (v : Byte) : bufWrite a v s = s := if_neg (Nat.not_lt.2 h)

theorem bufRead_written {v : Byte} (h : a < s.capN) (hv : s.buf.read a = some v) :
    bufRead a s = { s with rdBuf := v } := by
  rw [bufRead, if_pos h, hv]

theorem bufRead_unwritten (h : a < s.capN) (hv : s.buf.read a = none) :
    bufRead a s = { s with rdBuf := Config.freeByte s.freeCount, freeCount := s.freeCount + 1 } := by
  rw [bufRead, if_pos h, hv]

theorem bufRead_above (h : s.capN ≤ a) : bufRead a s = { s with rdBuf := 0#8 } := if_neg (Nat.not_lt.2 h)

/-! ### A command given twice -/

/-- No command writes an input of its own (R16, R31, R104). -/
theorem issue_sameInputs (h : issue s = .next t) : s.SameInputs t := by
  obtain ⟨c, rs, -, rfl⟩ := issue_next h
  exact ⟨rfl, rfl, rfl, rfl, rfl, fun _ _ _ => rfl⟩

/-- The engine step in the state it answers answers that state again: its inputs are the same, and STATUS and RES
hold its answer already. -/
theorem issue_idempotent (h : issue s = .next t) : issue t = .next t := by
  rw [(issue_sameInputs h).issue_eq, h]
  rfl

end

/-- Settles O25: CMD holds the word already, so the second write issues the command in the state it answered. -/
theorem repeatedCommandGivesTheSameState : Obligations.RepeatedCommandGivesTheSameState := by
  intro s t w h
  rw [regWrite_cmd] at h
  have hcmd : w = t.cmd := (issue_sameInputs h).cmd
  rw [regWrite_cmd, hcmd]
  exact issue_idempotent h

/-- Settles O13: the step is the host's write, and a memory write changes the byte at its own address alone. -/
theorem bufWriteStoresOneByte : Obligations.BufWriteStoresOneByte := by
  intro s rest a d h
  have hstep : step s = .next (bufWrite a (d.value s) { s with host := rest }) := step_cons h
  refine ⟨fun ha => ?_, fun ha => ?_⟩
  · have hnext : step s = .next { s with host := rest, buf := s.buf.write a (d.value s) } := by
      rw [hstep, bufWrite_below (s := { s with host := rest }) ha]
    exact ⟨_, hnext, rfl, read_write_same _ a _, fun b hb => read_write_other _ _ hb⟩
  · rw [hstep, bufWrite_above (s := { s with host := rest }) ha]

/-- Settles O12: no register stands at such an offset, and a narrow access has no effect at any. -/
theorem registerAccessOutsideTheMapDoesNothing : Obligations.RegisterAccessOutsideTheMapDoesNothing := by
  intro s rest off d hoff
  have hnone := ofOffset_eq_none hoff
  refine ⟨fun h => ?_, fun h => ?_, fun off' h => step_cons h, fun off' h => step_cons h⟩
  · rw [step_cons h, perform, regRead_of_none hnone]
  · rw [step_cons h]
    exact regWrite_of_none hnone _ _

/-- Settles O14: the step is the host's read, in its three cases. -/
theorem bufReadReturnsTheByte : Obligations.BufReadReturnsTheByte := by
  intro s rest a h
  have hstep : step s = .next (bufRead a { s with host := rest }) := step_cons h
  refine ⟨fun v ha hv => ?_, fun ha hv => ?_, fun ha => ?_⟩
  · rw [hstep, bufRead_written (s := { s with host := rest }) ha hv]
  · rw [hstep, bufRead_unwritten (s := { s with host := rest }) ha hv]
  · rw [hstep, bufRead_above (s := { s with host := rest }) ha]

end Sys2Proof.Machine
end

section
/-! The statements of family 30_encoding: command words (O1 to O5) and the statements of a host program (O48 to
O50). -/

namespace Sys2Proof.Machine

section
variable {w m : Word} {width bitoff : Nat}

/-! ### Slices and masks (R10, R43) -/

/-- A slice of an AND is the AND of the slices (R10). -/
theorem slice_and (u v hi lo : Nat) : slice (u &&& v) hi lo = slice u hi lo &&& slice v hi lo := by
  rw [slice, Nat.and_div_two_pow, Nat.and_mod_two_pow]; rfl

/-- A word with no bit of a mask has 0 in every slice that lies in the mask. -/
theorem slice_eq_zero_of_and {hi lo : Nat} (hm : slice m.toNat hi lo = 2 ^ (hi - lo + 1) - 1)
    (h : w &&& m = 0#32) : slice w.toNat hi lo = 0 := by
  calc slice w.toNat hi lo
      = slice w.toNat hi lo &&& slice m.toNat hi lo := by
        rw [hm, Nat.and_two_pow_sub_one_of_lt_two_pow (slice_lt w.toNat hi lo)]
    _ = slice (w &&& m).toNat hi lo := by rw [BitVec.toNat_and, slice_and]
    _ = 0 := by rw [h]; simp [slice]

/-- The opcode field is the word under the mask 0xF (R42). -/
theorem toNat_and_opcodeMask (w : Word) : (w &&& 0xF#32).toNat = w.toNat % 16 :=
  Nat.and_two_pow_sub_one_eq_mod w.toNat 4

/-- The reserved bits of format N are bits 31:4 (R42, R43). -/
theorem and_reservedN_eq_zero_iff : w &&& 0xFFFFFFF0#32 = 0#32 ↔ slice w.toNat 31 4 = 0 := by
  refine ⟨slice_eq_zero_of_and (by decide), fun h => ?_⟩
  have hopc : w &&& 0xF#32 = w := by
    refine BitVec.eq_of_toNat_eq ?_
    rw [toNat_and_opcodeMask]
    simp only [slice] at h
    omega
  rw [← hopc, BitVec.and_assoc]
  exact BitVec.and_zero

/-- The row of BFX in the opcode map: opcode 0x1 and no reserved bit of format B (R43, R44). -/
theorem and_rowMaskBfx_iff : w &&& 0xFFC0F8FF#32 = 1#32 ↔ w.toNat % 16 = 1 ∧ w &&& reservedB = 0#32 := by
  have hopc : w.toNat % 16 = 1 ↔ w &&& 0xF#32 = 1#32 := by
    rw [← toNat_and_opcodeMask]
    exact BitVec.toNat_inj (y := 1#32)
  have hsub : ∀ u : Word, w &&& (0xFFC0F8FF#32 &&& u) = (w &&& 0xFFC0F8FF#32) &&& u := fun u =>
    (BitVec.and_assoc ..).symm
  rw [hopc]
  constructor
  · intro h
    have hF := hsub 0xF#32
    have hB := hsub reservedB
    rw [h] at hF hB
    exact ⟨hF, hB⟩
  · rintro ⟨hF, hB⟩
    calc w &&& 0xFFC0F8FF#32
        = w &&& 0xF#32 ||| w &&& reservedB := BitVec.and_or_distrib_left (y := 0xF#32) (z := reservedB)
      _ = 1#32 := by rw [hF, hB]; rfl

/-! ### Decoding (R43 to R46) -/

/-- The words of R46 (a), (b) and (c). -/
def IllegalWord (w : Word) : Prop :=
  (w.toNat % 16 = 0 ∨ 5 ≤ w.toNat % 16) ∨
  (w.toNat % 16 = 1 ∧ w &&& 0xFFC0F8F0#32 ≠ 0#32) ∨
  ((w.toNat % 16 = 2 ∨ w.toNat % 16 = 3 ∨ w.toNat % 16 = 4) ∧ w &&& 0xFFFFFFF0#32 ≠ 0#32)

theorem decode_reservedOpcode (h : w.toNat % 16 = 0 ∨ 5 ≤ w.toNat % 16) :
    decode w = .error (.reservedOpcode (opcodeOf w)) := by
  rw [decode, opcodeOf_eq, if_neg (by omega), if_neg (by omega), if_neg (by omega), if_neg (by omega)]

theorem decode_formatB (h : w.toNat % 16 = 1) :
    decode w = if w &&& reservedB ≠ 0#32 then .error (.reservedBits 0x1)
      else .ok (.bfx (slice w.toNat 21 16) (slice w.toNat 10 8)) := by
  rw [decode, opcodeOf_eq, if_pos h]

/-- An opcode of format N selects the command whose word it is (R44, R48). -/
theorem decode_formatN (h : w.toNat % 16 = 2 ∨ w.toNat % 16 = 3 ∨ w.toNat % 16 = 4) :
    ∃ i : Instr, i.wf = true ∧ (encode i).toNat = w.toNat % 16 ∧ decode w = decodeN w i := by
  rcases h with h | h | h
  · exact ⟨.adtsFind, rfl, h.symm, by simp [decode, opcodeOf_eq, h]⟩
  · exact ⟨.rtpDec, rfl, h.symm, by simp [decode, opcodeOf_eq, h]⟩
  · exact ⟨.tsScan, rfl, h.symm, by simp [decode, opcodeOf_eq, h]⟩

theorem decode_illegal (h : IllegalWord w) : ∃ e, decode w = .error e := by
  rcases h with hopc | ⟨hopc, hbits⟩ | ⟨hopc, hbits⟩
  · exact ⟨_, decode_reservedOpcode hopc⟩
  · exact ⟨_, (decode_formatB hopc).trans (if_pos hbits)⟩
  · obtain ⟨i, -, -, hd⟩ := decode_formatN hopc
    exact ⟨_, hd.trans (if_pos fun h => hbits (and_reservedN_eq_zero_iff.2 h))⟩

/-- A word of BFX's row decodes to the BFX of its bits 21:16 and 10:8 (R44, R45). -/
theorem decode_rowBfx (h : w &&& 0xFFC0F8FF#32 = 1#32) :
    decode w = .ok (.bfx (slice w.toNat 21 16) (slice w.toNat 10 8)) := by
  obtain ⟨hopc, hbits⟩ := and_rowMaskBfx_iff.1 h
  exact (decode_formatB hopc).trans (if_neg (not_not_intro hbits))

/-! ### The word of a command (R48) -/

theorem wf_bfx_iff : (Instr.bfx width bitoff).wf = true ↔ width ≤ 63 ∧ bitoff ≤ 7 := by simp [Instr.wf]

/-- The three ORed parts of a BFX word do not overlap, so they add up (R48). -/
theorem toNat_encode_bfx (h : (Instr.bfx width bitoff).wf = true) :
    (encode (.bfx width bitoff)).toNat = width * 2 ^ 16 + bitoff * 2 ^ 8 + 1 := by
  obtain ⟨hwidth, hbitoff⟩ := wf_bfx_iff.1 h
  have hlow : 0x1 ||| bitoff <<< 8 = bitoff * 2 ^ 8 + 1 := by
    rw [Nat.lor_comm, ← Nat.shiftLeft_add_eq_or_of_lt (by decide), Nat.shiftLeft_eq]
  have hword : 0x1 ||| bitoff <<< 8 ||| width <<< 16 = width * 2 ^ 16 + (bitoff * 2 ^ 8 + 1) := by
    rw [hlow, Nat.lor_comm, ← Nat.shiftLeft_add_eq_or_of_lt (by omega), Nat.shiftLeft_eq]
  rw [encode, hword, BitVec.toNat_ofNat]
  omega

/-- A word of BFX's row is the word of its operands: every other bit is fixed (R44, R48). -/
theorem encode_operands_of_rowBfx (h : w &&& 0xFFC0F8FF#32 = 1#32) :
    (Instr.bfx (slice w.toNat 21 16) (slice w.toNat 10 8)).wf = true ∧
    encode (.bfx (slice w.toNat 21 16) (slice w.toNat 10 8)) = w := by
  obtain ⟨hopc, hbits⟩ := and_rowMaskBfx_iff.1 h
  have hwf : (Instr.bfx (slice w.toNat 21 16) (slice w.toNat 10 8)).wf = true :=
    wf_bfx_iff.2 ⟨Nat.le_of_lt_succ (slice_lt ..), Nat.le_of_lt_succ (slice_lt ..)⟩
  refine ⟨hwf, BitVec.eq_of_toNat_eq ?_⟩
  have h7 : slice w.toNat 7 4 = 0 := slice_eq_zero_of_and (by decide) hbits
  have h15 : slice w.toNat 15 11 = 0 := slice_eq_zero_of_and (by decide) hbits
  have h31 : slice w.toNat 31 22 = 0 := slice_eq_zero_of_and (by decide) hbits
  rw [toNat_encode_bfx hwf]
  simp only [slice] at h7 h15 h31 ⊢
  omega

/-- A legal word decodes to a well-formed command, of which it is the word (R45, R46, R48). -/
theorem decode_legal (h : ¬ IllegalWord w) : ∃ i : Instr, i.wf = true ∧ encode i = w ∧ decode w = .ok i := by
  simp only [IllegalWord, not_or, not_and, not_not] at h
  obtain ⟨hopc, hB, hN⟩ := h
  by_cases h1 : w.toNat % 16 = 1
  · have hrow := and_rowMaskBfx_iff.2 ⟨h1, hB h1⟩
    obtain ⟨hwf, henc⟩ := encode_operands_of_rowBfx hrow
    exact ⟨_, hwf, henc, decode_rowBfx hrow⟩
  · have h234 : w.toNat % 16 = 2 ∨ w.toNat % 16 = 3 ∨ w.toNat % 16 = 4 := by omega
    have hbits : slice w.toNat 31 4 = 0 := and_reservedN_eq_zero_iff.1 (hN h234)
    obtain ⟨i, hwf, henc, hd⟩ := decode_formatN h234
    refine ⟨i, hwf, BitVec.eq_of_toNat_eq ?_, hd.trans (if_neg (not_not_intro hbits))⟩
    simp only [slice] at hbits
    omega

theorem decode_error_iff : (∃ e, decode w = .error e) ↔ IllegalWord w := by
  refine ⟨fun ⟨e, he⟩ => ?_, decode_illegal⟩
  by_contra hlegal
  obtain ⟨i, -, -, hd⟩ := decode_legal hlegal
  rw [hd] at he
  cases he

theorem encode_of_decode {i : Instr} (h : decode w = .ok i) : i.wf = true ∧ encode i = w := by
  have hlegal : ¬ IllegalWord w := fun hbad => by
    obtain ⟨e, he⟩ := decode_illegal hbad
    rw [he] at h
    cases h
  obtain ⟨j, hwf, henc, hd⟩ := decode_legal hlegal
  cases hd.symm.trans h
  exact ⟨hwf, henc⟩

theorem decode_encode {i : Instr} (h : i.wf = true) : decode (encode i) = .ok i := by
  cases i with
  | bfx width bitoff =>
    obtain ⟨hwidth, hbitoff⟩ := wf_bfx_iff.1 h
    have hslice : slice (encode (.bfx width bitoff)).toNat 21 16 = width ∧
        slice (encode (.bfx width bitoff)).toNat 10 8 = bitoff := by
      rw [toNat_encode_bfx h]
      simp only [slice]
      omega
    rw [decode_rowBfx (Laws.EncodesItsTableRow.bfx width bitoff h), hslice.1, hslice.2]
  | adtsFind => rfl
  | rtpDec => rfl
  | tsScan => rfl

/-- The words that decode to a command are its own (R45, R48). -/
theorem decode_eq_ok_iff {i : Instr} : decode w = .ok i ↔ i.wf = true ∧ encode i = w :=
  ⟨encode_of_decode, fun ⟨hwf, henc⟩ => henc ▸ decode_encode hwf⟩

end

section
variable {s t : State} {w : Word} {width bitoff : Nat}

/-! ### A command word that ends in an error -/

/-- What `raise` writes, with the word in CMD: STATUS is its low four bits and the code, and every result is 0
(R12, R21). -/
theorem raise_eq (c : StatusCode) (s : State) :
    raise c s = { s with status := BitVec.ofNat 32 (s.cmd.toNat % 16 * 16 + c.code), res := noResults } := by
  rw [← opcodeOf_eq]; rfl

/-- A write of an illegal word ends with ERR_OPCODE, in every state (R46). -/
theorem regWrite_illegal (h : ∃ e, decode w = .error e) (s : State) :
    regWrite 0 w s = .next (raise .errOpcode { s with cmd := w }) := by
  obtain ⟨e, he⟩ := h
  exact issue_illegal (s := { s with cmd := w }) he

/-- A width of 0 or above 32 ends BFX with ERR_RANGE, whatever its window is (R46, R51). -/
theorem execBfx_badWidth (h : width = 0 ∨ 33 ≤ width) (s : State) :
    execBfx width bitoff s = .next (raise .errRange s) := by
  rcases execBfx_cases width bitoff s with ⟨-, he⟩ | ⟨-, ⟨hlo, hhi, -⟩, -⟩ | ⟨-, ⟨hlo, hhi, -⟩, -⟩
  · exact he
  · omega
  · omega

/-! ### Runs of host events (R40, R49) -/

/-- A run whose first event goes on is a run from the state it leaves (R40). -/
theorem run_cons {e : HostEvent} {rest : List HostEvent} {k : Nat} (h : s.host = e :: rest)
    (hp : perform e { s with host := rest } = .next t) : run (k + 1) s = run k t := by
  rw [run, step_cons h, hp]

/-- No register holds the host's own side (R15). -/
theorem reg_of_host (s : State) (es : List HostEvent) (r : Reg) : State.reg { s with host := es } r = s.reg r := by
  cases r <;> rfl

theorem run_one (s : State) : run 1 s = step s := by
  rw [run]
  cases step s <;> rfl

/-- A host write below BUF_CAP at the head of a run stores its byte (R33). -/
theorem run_bufWrite {a k : Nat} {d : ByteSource} {rest : List HostEvent} (h : s.host = .bufWrite a d :: rest)
    (ha : a < s.capN) : run (k + 1) s = run k { s with host := rest, buf := s.buf.write a (d.value s) } :=
  run_cons h (congrArg Host.Outcome.next (bufWrite_below (s := { s with host := rest }) ha _))

/-- A host read of a written byte and the write of the value it returned, at the head of a run, copy the byte (R34,
R49). -/
theorem run_copyByte {dst src k : Nat} {v : Byte} {rest : List HostEvent}
    (h : s.host = .bufRead src :: .bufWrite dst .lastRead :: rest) (hdst : dst < s.capN) (hsrc : src < s.capN)
    (hv : s.buf.read src = some v) :
    run (k + 2) s = run k { s with host := rest, buf := s.buf.write dst v, rdBuf := v } := by
  have hread := bufRead_written (s := { s with host := .bufWrite dst .lastRead :: rest }) hsrc hv
  rw [run_cons h (congrArg Host.Outcome.next hread)]
  exact run_bufWrite (d := .lastRead) rfl hdst

end

/-- Settles O2: the parts of a command's word do not overlap, so each is read back whole. -/
theorem decodeUndoesEncode : Obligations.DecodeUndoesEncode := fun _ => decode_encode

/-- Settles O3: a legal word is the word of its command, and the operands are read back from that word. -/
theorem encodeUndoesDecode : Obligations.EncodeUndoesDecode := by
  intro w i h
  obtain ⟨hwf, henc⟩ := encode_of_decode h
  refine ⟨hwf, henc, fun width bitoff hi => ?_⟩
  subst hi
  obtain ⟨hwidth, hbitoff⟩ := wf_bfx_iff.1 hwf
  rw [← henc, toNat_encode_bfx hwf]
  omega

/-- Settles O4: a row's mask and match single out the words of its commands (`decode_eq_ok_iff`). -/
theorem opcodeMapSelectsByMaskAndMatch : Obligations.OpcodeMapSelectsByMaskAndMatch := by
  intro w
  have hall : w &&& 0xFFFFFFFF#32 = w := BitVec.and_allOnes
  have hrow : ∀ i : Instr, i.wf = true → (decode w = .ok i ↔ w = encode i) := fun i hwf => by
    rw [decode_eq_ok_iff, and_iff_right hwf, eq_comm]
  rw [hall]
  refine ⟨⟨fun ⟨width, bitoff, hd⟩ => ?_, fun h => ⟨_, _, decode_rowBfx h⟩⟩, hrow .adtsFind rfl, hrow .rtpDec rfl,
    hrow .tsScan rfl, fun hopc s => ⟨_, regWrite_illegal (decode_illegal (.inl hopc)) s, complete_code⟩⟩
  obtain ⟨hwf, henc⟩ := encode_of_decode hd
  exact henc ▸ Laws.EncodesItsTableRow.bfx width bitoff hwf

/-- Settles O5: the decoder's answers by the word's opcode and reserved bits, and what `raise` writes. -/
theorem illegalWordsEndInErrOpcode : Obligations.IllegalWordsEndInErrOpcode := by
  intro s w
  refine ⟨decode_error_iff, fun h => ?_, fun width bitoff hwidth hbitoff => ?_, ⟨_, rfl⟩⟩
  · rw [regWrite_illegal h, raise_eq]
    rfl
  · have hwf : (Instr.bfx width bitoff).wf = true := wf_bfx_iff.2 ⟨by omega, hbitoff⟩
    have hd := decode_encode hwf
    refine ⟨hd, ?_⟩
    have hopc : (encode (.bfx width bitoff)).toNat % 16 = 1 := by rw [toNat_encode_bfx hwf]; omega
    rw [regWrite_cmd, issue_command (i := .bfx width bitoff) hd, exec, execBfx_badWidth (by omega), raise_eq, hopc]
    rfl

/-- Settles O48: a step that reads the source, and one that writes the value it returned. -/
theorem hostMovCopiesARegister : Obligations.HostMovCopiesARegister := by
  intro s r src rest h
  have hread : perform (.regRead src.offset) { s with host := .regWrite r.offset .lastRead :: rest }
      = .next { s with host := .regWrite r.offset .lastRead :: rest, rdReg := s.reg src } := by
    rw [perform, regRead_offset, reg_of_host]
  have hrun : run 2 s = regWrite r.offset (s.reg src) { s with host := rest, rdReg := s.reg src } := by
    rw [run_cons h hread, run_one]
    rfl
  refine ⟨hrun, ?_, ?_⟩
  · rintro rfl; exact hrun
  · rintro rfl; exact hrun

/-- Settles O49, by induction on the bytes: the first is stored below all the others, which leave it alone. -/
theorem hostWbStoresItsBytes : Obligations.HostWbStoresItsBytes := by
  intro s a bs rest h hfit
  change s.host = writeBytes a bs ++ rest at h
  induction bs generalizing s a with
  | nil =>
    subst h
    exact ⟨s, rfl, rfl, nofun, fun _ _ => rfl⟩
  | cons x bs ih =>
    simp only [List.length_cons] at hfit ⊢
    have hfit' : a + 1 + bs.length ≤ s.capN := by omega
    obtain ⟨t, hrun, ht, hin, hout⟩ :=
      ih { s with host := writeBytes (a + 1) bs ++ rest, buf := s.buf.write a x } (a + 1) hfit' rfl
    refine ⟨t, (run_bufWrite h (by omega)).trans hrun, ht, fun k hk => ?_, fun b hb => ?_⟩
    · cases k with
      | zero => exact (hout a (by omega)).trans (read_write_same s.buf a x)
      | succ k => rw [← Nat.add_assoc, Nat.add_right_comm]; exact hin k (by omega)
    · exact (hout b (by omega)).trans (read_write_other s.buf x (by omega))

/-- Settles O50, by induction on the length: the byte stored first lies below every source byte still to be read, as
`dst ≤ src`. -/
theorem hostCpMovesBytes : Obligations.HostCpMovesBytes := by
  intro s dst src n rest h hle hfit hwritten
  change s.host = copyBytes dst src n ++ rest at h
  induction n generalizing s dst src with
  | zero =>
    subst h
    exact ⟨s, rfl, rfl, nofun, fun _ _ => rfl⟩
  | succ n ih =>
    obtain ⟨v, hv⟩ := Option.isSome_iff_exists.1 (hwritten src (by omega) (by omega))
    have hsrc : ∀ b, src < b → (s.buf.write dst v).read b = s.buf.read b := fun b hb =>
      read_write_other s.buf v (by omega)
    have hfit' : src + 1 + n ≤ s.capN := by omega
    have hwritten' : ∀ b, src + 1 ≤ b → b < src + 1 + n → ((s.buf.write dst v).read b).isSome := by
      intro b hlo hhi
      rw [hsrc b (by omega)]
      exact hwritten b (by omega) (by omega)
    obtain ⟨t, hrun, ht, hin, hout⟩ :=
      ih { s with host := copyBytes (dst + 1) (src + 1) n ++ rest, buf := s.buf.write dst v, rdBuf := v }
        (dst + 1) (src + 1) (by omega) hfit' hwritten' rfl
    refine ⟨t, (run_copyByte h (by omega) (by omega) hv).trans hrun, ht, fun k hk => ?_, fun b hb => ?_⟩
    · cases k with
      | zero => exact (hout dst (by omega)).trans ((read_write_same s.buf dst v).trans hv.symm)
      | succ k =>
        rw [← Nat.add_assoc, ← Nat.add_assoc, Nat.add_right_comm, Nat.add_right_comm src, hin k (by omega)]
        exact hsrc _ (by omega)
    · exact (hout b (by omega)).trans (read_write_other s.buf v (by omega))

/-- Settles O1, by running the decoder on each word. -/
theorem spelledWordsDecode : Obligations.SpelledWordsDecode := by
  unfold Obligations.SpelledWordsDecode
  decide

end Sys2Proof.Machine
end

section
/-! The statements of family 40_bitfield: a field as a slice of bytes (O28), BFX whole (O27), and the position a command
reports (O26). -/

namespace Sys2Proof.Machine

section
variable {s t : State} {i : Instr} {c : StatusCode} {rs : List Nat} {width bitoff : Nat}

/-! ### Parts of a field (R12, R53) -/

@[simp] theorem field_one (s : State) (q : Nat) : field s q 1 = bitAt s q := by
  rw [field_succ, field_zero, Nat.zero_mul, Nat.zero_add, Nat.add_zero]

/-- Dropping a field's last `r` bits leaves the field before them. -/
theorem field_div_two_pow (s : State) (q w r : Nat) : field s q (w + r) / 2 ^ r = field s q w := by
  rw [adjacentFieldsJoin s q w r, Nat.mul_comm, Nat.mul_add_div (Nat.two_pow_pos r),
    Nat.div_eq_of_lt (field_lt s (q + w) r), Nat.add_zero]

/-- A field's last `w` bits are the field after the others. -/
theorem field_mod_two_pow (s : State) (q o w : Nat) : field s q (o + w) % 2 ^ w = field s (q + o) w := by
  rw [adjacentFieldsJoin s q o w, Nat.mul_comm, Nat.mul_add_mod, Nat.mod_eq_of_lt (field_lt s (q + o) w)]

/-- A field inside another is the slice of its value between the bits before it and the `r` bits after it. -/
theorem field_eq_slice (s : State) (q o : Nat) {w r : Nat} (hw : 1 ≤ w) :
    field s (q + o) w = slice (field s q (o + w + r)) (w + r - 1) r := by
  rw [slice, field_div_two_pow, show w + r - 1 - r + 1 = w by omega, field_mod_two_pow]

/-- Whole bytes read as one field are their big-endian value (R53). -/
theorem field_bytes (s : State) (p n : Nat) : field s (8 * p) (8 * n) = s.bigEndian p n := by
  induction n with
  | zero => rfl
  | succ n ih =>
    rw [Nat.mul_succ, adjacentFieldsJoin s (8 * p) (8 * n) 8, ih, ← Nat.mul_add, field_byte, bigEndian_succ]

/-! ### Results that fit a register (R10, R14) -/

/-- A value below 2^32 goes into a register whole. -/
theorem zext32_toNat {v : Nat} (h : v < 2 ^ 32) : (zext32 v).toNat = v := by
  rw [zext32, BitVec.toNat_ofNat, Nat.mod_eq_of_lt h]

theorem getD_lt_two_pow (h : ∀ r ∈ rs, r < 2 ^ 32) (k : Nat) : rs.getD k 0 < 2 ^ 32 := by
  by_cases hk : k < rs.length
  · rw [List.getD_eq_getElem _ _ hk]
    exact h _ (List.getElem_mem hk)
  · rw [List.getD_eq_default _ _ (Nat.le_of_not_lt hk)]
    exact Nat.two_pow_pos 32

/-- A command whose results all fit ends with them, and 0 where there is none (R12). -/
theorem complete_ends (c : StatusCode) (s : State) (h : ∀ r ∈ rs, r < 2 ^ 32) :
    s.Ends (complete c rs s) c.code ((List.range 8).map fun k => rs.getD k 0) := by
  refine ⟨complete_status_toNat, ?_, rfl⟩
  rw [complete_resN]
  exact List.map_congr_left fun k _ => zext32_toNat (getD_lt_two_pow h k)

/-! ### The outcomes of BFX (R50 to R52) -/

theorem opcodeOf_encode_bfx (h : (Instr.bfx width bitoff).wf = true) : opcodeOf (encode (.bfx width bitoff)) = 1 := by
  rw [opcodeOf_eq, toNat_encode_bfx h]; omega

/-- The results of a BFX whose field fits in a window fit their registers (R14). -/
theorem bfxFits.results_lt (h : bfxFits width bitoff s) :
    ∀ r ∈ [field s (8 * s.posN + bitoff) width, (8 * s.posN + bitoff + width) / 8,
      (8 * s.posN + bitoff + width) % 8], r < 2 ^ 32 := by
  obtain ⟨-, hmax, hend⟩ := h
  have hfield : field s (8 * s.posN + bitoff) width < 2 ^ 32 :=
    (field_lt ..).trans_le (Nat.pow_le_pow_right (by decide) hmax)
  have hendN : s.endN < 2 ^ 32 := s.wend.isLt
  simp only [List.forall_mem_cons, List.not_mem_nil, false_implies, implies_true, and_true]
  exact ⟨hfield, by omega, by omega⟩

/-- The bytes a field spans end with the byte of its last bit (R100). -/
theorem bfxFits.span_end (h : bfxFits width bitoff s) :
    s.posN + bfxSpan width bitoff s = (8 * s.posN + bitoff + width - 1) / 8 + 1 := by
  obtain ⟨hmin, -, -⟩ := h
  rw [bfxSpan]
  omega

/-- A BFX that passes every check, its field's bytes written (R50). -/
theorem execBfx_ok (hw : s.windowOk) (hf : bfxFits width bitoff s)
    (hb : s.written s.posN (s.posN + bfxSpan width bitoff s)) :
    execBfx width bitoff s = .next (complete .ok
      [field s (8 * s.posN + bitoff) width, (8 * s.posN + bitoff + width) / 8,
        (8 * s.posN + bitoff + width) % 8] s) := by
  rcases execBfx_cases width bitoff s with ⟨hbad, -⟩ | ⟨-, -, -, he⟩ | ⟨-, -, b, hlo, hhi, hnone, -⟩
  · exact absurd ⟨hw, hf⟩ hbad
  · exact he
  · have := hb b hlo hhi
    rw [hnone] at this
    cases this

/-- A BFX that fails a check reads nothing (R43, R51, R52). -/
theorem execBfx_errRange (h : ¬ (s.windowOk ∧ bfxFits width bitoff s)) :
    execBfx width bitoff s = .next (raise .errRange s) := by
  rcases execBfx_cases width bitoff s with ⟨-, he⟩ | ⟨hw, hf, -⟩ | ⟨hw, hf, -⟩
  · exact he
  · exact absurd ⟨hw, hf⟩ h
  · exact absurd ⟨hw, hf⟩ h

/-! ### The position a command reports -/

/-- The result register that holds the position a command reports: RES1 of BFX, RES0 of the others. -/
def reportedAt : Instr → Fin 8
  | .bfx _ _ => 1
  | _ => 0

/-- What a command that ends with a code says of where the host goes on: a position in the window, and with FOUND one
past a frame of at least 7 bytes (R60, R102). -/
structure PositionInWindow (s : State) (code p : Nat) : Prop where
  lower : s.posN ≤ p
  upper : p ≤ s.endN
  found : code = 2 → s.posN + 7 ≤ p

/-- A position in the window fits its register, so the register holds it. -/
theorem complete_position {k : Fin 8} (h : PositionInWindow s c.code (rs.getD k 0)) :
    PositionInWindow s (complete c rs s).code ((complete c rs s).resultN k) := by
  have hfits : rs.getD k 0 < 2 ^ 32 := h.upper.trans_lt s.wend.isLt
  rw [complete_code, complete_resultN, zext32_toNat hfits]
  exact h

/-- The codes of a failure lie above OK, FOUND, NEED_MORE and NO_SYNC (R22). -/
theorem raise_code_not_le_four (h : 5 ≤ c.code) : ¬ (raise c s).code ≤ 4 := by
  rw [raise_eq_complete, complete_code]; omega

/-- An accepted frame is at least 7 bytes long (R60). -/
theorem frameLength_of_accepts {p : Nat} (h : accepts s p = true) : 7 ≤ frameLength s p := by
  rw [accepts, Bool.and_eq_true, decide_eq_true_eq] at h
  exact h.2

/-- ADTS.FIND goes on at the frame's end, at the start of a frame that is not whole yet, or where fewer than 7 bytes are
left (R61 to R63). -/
theorem adtsReport_position (hle : s.posN ≤ s.endN) {e : ScanEnd} (h : scan s (s.endN - s.posN) s.posN = e) :
    PositionInWindow s (adtsReport s e).code ((adtsReport s e).resultN 0) := by
  cases e with
  | noSync p =>
    obtain ⟨hp, -⟩ := scan_noSync h
    have hpos : PositionInWindow s 4 p := ⟨by omega, by omega, nofun⟩
    exact complete_position hpos
  | header p =>
    obtain ⟨hlo, hhi, hacc, -⟩ := scan_header h
    have hlen := frameLength_of_accepts hacc
    simp only [adtsReport]
    split
    · have hpos : PositionInWindow s 3 p := ⟨hlo, by omega, nofun⟩
      exact complete_position hpos
    · have hpos : PositionInWindow s 2 (p + frameLength s p) := ⟨by omega, by omega, fun _ => by omega⟩
      exact complete_position hpos

/-- A walk ends between its start and the end of its last full stride (R80 to R82). -/
theorem walk_next_bounds (s : State) (full a c : Nat) :
    a ≤ (walk s full a c).next ∧ (walk s full a c).next ≤ a + 188 * full := by
  obtain ⟨hnext, -, -, hstop⟩ := walk_spec s full a c
  omega

/-- A command that did not fail had a legal window and reports a position in it: past the field, the frame, the header
or the accepted strides. -/
theorem exec_position (h : exec i s = .next t) (hcode : t.code ≤ 4) :
    s.windowOk ∧ PositionInWindow s t.code (t.resultN (reportedAt i)) := by
  by_cases hw : s.windowOk
  · refine ⟨hw, ?_⟩
    have hle : s.posN ≤ s.endN := hw.1
    cases i with
    | bfx width bitoff =>
      change execBfx width bitoff s = .next t at h
      rcases execBfx_cases width bitoff s with ⟨-, he⟩ | ⟨-, ⟨hmin, hmax, hend⟩, -, he⟩ | ⟨-, -, b, -, -, -, he⟩ <;>
        rw [he] at h <;> cases h
      · exact absurd hcode (raise_code_not_le_four (by decide))
      · have hpos : PositionInWindow s 1 ((8 * s.posN + bitoff + width) / 8) := ⟨by omega, by omega, nofun⟩
        exact complete_position hpos
    | adtsFind =>
      cases windowOk_next hw h
      exact adtsReport_position hle rfl
    | rtpDec =>
      have ht := windowOk_next hw h
      split at ht <;> cases ht
      · exact absurd hcode (raise_code_not_le_four (by decide))
      · have hpos : PositionInWindow s 1 (s.posN + 12) := ⟨by omega, by omega, nofun⟩
        exact complete_position hpos
    | tsScan =>
      cases windowOk_next hw h
      obtain ⟨hlo, hhi⟩ := walk_next_bounds s ((s.endN - s.posN) / 188) s.posN 0
      have hpos : PositionInWindow s 1 (walk s ((s.endN - s.posN) / 188) s.posN 0).next := ⟨hlo, by omega, nofun⟩
      exact complete_position hpos
  · rw [exec_badWindow i hw] at h
    cases h
    exact absurd hcode (raise_code_not_le_four (by decide))

/-- FOUND is ADTS.FIND's alone (R22). -/
theorem adtsFind_of_found (h : exec i s = .next t) (hcode : t.code = 2) : i = .adtsFind := by
  obtain ⟨c, rs, ha, rfl⟩ := exec_answers h
  obtain ⟨-, -, -, hadts, -⟩ := ha.code_facts
  exact hadts (.inl (complete_code ▸ hcode))

end

/-- Settles O28: the bytes the field spans, read as one field, and the field inside it. -/
theorem fieldIsASliceOfBigEndianBytes : Obligations.FieldIsASliceOfBigEndianBytes := by
  intro s p o w n ho hw hn
  obtain ⟨r, hr⟩ : ∃ r, 8 * n = o + w + r := ⟨8 * n - o - w, by omega⟩
  refine ⟨?_, ?_, ?_, fun s' h => field_congr fun k hk => h _ (by omega) (by omega)⟩
  · rw [← field_bytes, hr, show o + w + r - 1 - o = w + r - 1 by omega, show o + w + r - o - w = r by omega]
    exact field_eq_slice s (8 * p) o hw
  · have hfirst := field_div_two_pow s (8 * p + o) 1 (w - 1)
    rwa [Nat.add_sub_cancel' hw, field_one] at hfirst
  · have hlast := field_mod_two_pow s (8 * p + o) (w - 1) 1
    rwa [Nat.sub_add_cancel hw, field_one, ← Nat.add_sub_assoc hw] at hlast

/-- Settles O27: the checks of BFX decide between `complete` and `raise`, and the field and the place after it fit their
registers. -/
theorem bfxExtractsTheField : Obligations.BfxExtractsTheField := by
  refine ⟨fun s width bitoff hcmd hwidth hbitoff _ => ?_, fun s w hopc hbits => ?_⟩
  · have hopc : opcodeOf s.cmd = 1 := by rw [hcmd, opcodeOf_encode_bfx (wf_bfx_iff.2 ⟨hwidth, hbitoff⟩)]
    refine ⟨fun ⟨hw, hmin, hmax, hend, hb⟩ => ?_, fun hbad => ?_⟩
    · have hf : bfxFits width bitoff s := ⟨hmin, hmax, hend⟩
      refine ⟨_, execBfx_ok hw hf (hf.span_end ▸ hb), ?_, complete_ends .ok s hf.results_lt, ?_⟩
      · rw [complete_status, hopc]; rfl
      · rw [complete_resultN, zext32_toNat (getD_lt_two_pow hf.results_lt _)]
        exact field_lt s (8 * s.posN + bitoff) width
    · have hfail : ¬ (s.windowOk ∧ bfxFits width bitoff s) := by
        rintro ⟨hw, hmin, hmax, hend⟩
        rcases hbad with hbad | hbad
        · exact hbad hw
        · omega
      refine ⟨_, execBfx_errRange hfail, ?_, raise_ends .errRange s⟩
      rw [raise_status, hopc]; rfl
  · exact ⟨_, regWrite_illegal (decode_illegal (.inr (.inl ⟨hopc, hbits⟩))) s, raise_ends .errOpcode _⟩

/-- Settles O26: the reported position lies in the window (`exec_position`), and no command writes END or CAP. -/
theorem reportedPositionKeepsTheWindow : Obligations.ReportedPositionKeepsTheWindow := by
  intro s t i _ h _ hcode
  obtain ⟨⟨-, hcap⟩, hlower, hupper, hfound⟩ := exec_position h hcode
  refine ⟨fun p hp => ?_, fun h2 => ?_⟩
  · have hreg : p = t.resultN (reportedAt i) := by rw [hp]; cases i <;> rfl
    subst hreg
    refine ⟨hlower, hupper, ?_⟩
    rw [exec_frame h]
    exact ⟨(Nat.mod_le _ _).trans hupper, hcap⟩
  · obtain rfl := adtsFind_of_found h h2
    exact hfound h2

end Sys2Proof.Machine
end

section
/-! The statements of family 41_adts: the candidate test and the frame length (O30, O31), the outcomes of ADTS.FIND
(O32 to O36), the header's fields (O37 to O39), and a refill (O40). -/

namespace Sys2Proof.Machine

section
variable {s t : State} {p : Nat} {e : ScanEnd}

/-! ### Fields inside a byte (R53, R56) -/

/-- A field inside the byte at `a`, `o` bits from its left. -/
theorem field_in_byte (s : State) (a : Nat) {o w : Nat} (hw : 1 ≤ w) (ho : o + w ≤ 8) :
    field s (8 * a + o) w = slice (s.byte a) (7 - o) (8 - o - w) := by
  rw [field_eq_slice s (8 * a) o (r := 8 - o - w) hw, show o + w + (8 - o - w) = 8 by omega, field_byte,
    show w + (8 - o - w) - 1 = 7 - o by omega]

/-- Bits `hi` to `lo` of a field that lie in the byte at `a` are its bits `hi'` to `lo'`. -/
theorem slice_field_of_byte (s : State) {q w hi lo a hi' lo' : Nat}
    (h : lo ≤ hi ∧ hi < w ∧ hi' < 8 ∧ hi + lo' = hi' + lo ∧ q + w + hi' = 8 * a + 8 + hi) :
    slice (field s q w) hi lo = slice (s.byte a) hi' lo' := by
  have hslice := field_eq_slice s q (w - 1 - hi) (w := hi - lo + 1) (r := lo) (by omega)
  rw [show w - 1 - hi + (hi - lo + 1) + lo = w by omega, show hi - lo + 1 + lo - 1 = hi by omega,
    show q + (w - 1 - hi) = 8 * a + (7 - hi') by omega, field_in_byte s a (by omega) (by omega),
    show 7 - (7 - hi') = hi' by omega, show 8 - (7 - hi') - (hi - lo + 1) = lo' by omega] at hslice
  exact hslice.symm

/-- A slice cut in two at bit `mid`. -/
theorem slice_split (v : Nat) {hi mid lo : Nat} (hlo : lo < mid) (hhi : mid ≤ hi) :
    slice v hi lo = slice v hi mid * 2 ^ (mid - lo) + slice v (mid - 1) lo := by
  obtain ⟨n, rfl⟩ : ∃ n, mid = lo + n := ⟨mid - lo, by omega⟩
  rw [slice, slice, slice, show hi - lo + 1 = n + (hi - (lo + n) + 1) by omega, show lo + n - 1 - lo + 1 = n by omega,
    Nat.add_sub_cancel_left, Nat.pow_add 2 n, Nat.mod_mul, Nat.pow_add 2 lo, Nat.div_div_eq_div_mul]
  ring

/-- Bits `hi` to `lo` of a field that begin in the byte at `a` and end in the next are the last bits of the one and the
first `n` of the other. -/
theorem slice_field_of_bytes (s : State) {q w hi lo a hi' lo' n : Nat}
    (h : 1 ≤ n ∧ n + lo' = 8 ∧ hi = lo + n + hi' ∧ hi < w ∧ hi' < 8 ∧ q + w + hi' = 8 * a + 8 + hi) :
    slice (field s q w) hi lo = slice (s.byte a) hi' 0 * 2 ^ n + slice (s.byte (a + 1)) 7 lo' := by
  rw [slice_split _ (mid := lo + n) (by omega) (by omega), Nat.add_sub_cancel_left,
    slice_field_of_byte s (a := a) (hi' := hi') (lo' := 0) (by omega),
    slice_field_of_byte s (a := a + 1) (hi' := 7) (lo' := lo') (by omega)]

/-- Above its bits a value has none. -/
theorem slice_eq_zero_of_lt {v hi lo : Nat} (h : v < 2 ^ lo) : slice v hi lo = 0 := by
  rw [slice, Nat.div_eq_of_lt h, Nat.zero_mod]

/-- Equal bytes at two places hold equal fields at the same offset. -/
theorem field_of_equal_bytes {a b n : Nat} (h : ∀ k, k < n → s.byte (a + k) = t.byte (b + k)) {o w : Nat}
    (hw : o + w ≤ 8 * n) : field s (8 * a + o) w = field t (8 * b + o) w := by
  refine field_congr fun k hk => ?_
  have hbyte := h ((o + k) / 8) (by omega)
  rw [bitAt_eq, bitAt_eq, show (8 * a + o + k) / 8 = a + (o + k) / 8 by omega,
    show (8 * b + o + k) / 8 = b + (o + k) / 8 by omega, hbyte,
    show (8 * a + o + k) % 8 = (8 * b + o + k) % 8 by omega]

/-! ### Candidates and frame starts (R57 to R60) -/

/-- The candidate test by bytes (R57). -/
theorem isCandidate_iff (s : State) (p : Nat) :
    isCandidate s p = true ↔ s.byte p = 0xFF ∧ s.byte (p + 1) / 16 = 0xF := by
  have hnibble : slice (s.byte (p + 1)) 7 4 = s.byte (p + 1) / 16 := by
    have := byte_lt s (p + 1)
    rw [slice]; omega
  rw [isCandidate, Bool.and_eq_true, decide_eq_true_eq, decide_eq_true_eq, ← BitVec.toNat_inj, ← hnibble]
  rfl

/-- The first 12 stream bits at `p` are byte `p` and the top nibble of the next (R57). -/
theorem field_syncWord (s : State) (p : Nat) : field s (8 * p) 12 = s.byte p * 16 + s.byte (p + 1) / 16 := by
  have hnibble : field s (8 * (p + 1)) 4 = slice (s.byte (p + 1)) 7 4 :=
    field_in_byte s (p + 1) (o := 0) (by decide) (by decide)
  have := byte_lt s (p + 1)
  rw [adjacentFieldsJoin s (8 * p) 8 4, field_byte, ← Nat.mul_succ, hnibble, slice]
  omega

/-- The frame length by bytes (R59). -/
theorem frameLength_eq (s : State) (p : Nat) : frameLength s p = s.lengthAt p := by
  have hhigh : field s (8 * p + 30) 2 = slice (s.byte (p + 3)) 1 0 :=
    field_in_byte s (p + 3) (o := 6) (by decide) (by decide)
  have hmid : field s (8 * p + 30 + 2) 8 = s.byte (p + 4) := field_byte s (p + 4)
  have hlow : field s (8 * p + 30 + (2 + 8)) 3 = slice (s.byte (p + 5)) 7 5 :=
    field_in_byte s (p + 5) (o := 0) (by decide) (by decide)
  have := byte_lt s (p + 5)
  rw [frameLength, adjacentFieldsJoin s _ (2 + 8) 3, adjacentFieldsJoin s _ 2 8, hhigh, hmid, hlow, State.lengthAt,
    slice, slice]
  omega

theorem lengthAt_lt (s : State) (p : Nat) : s.lengthAt p < 2 ^ 13 := by
  rw [← frameLength_eq]; exact field_lt ..

theorem accepts_iff : accepts s p = true ↔ s.frameAt p := by
  rw [accepts, Bool.and_eq_true, decide_eq_true_eq, isCandidate_iff, frameLength_eq, and_assoc]

theorem accepts_eq_false_iff : accepts s p = false ↔ ¬ s.frameAt p := by
  rw [← accepts_iff, Bool.not_eq_true]

/-! ### The first frame start of the window -/

/-- The position is the first frame start in the window, with 7 bytes left from it on (R58, R68). -/
structure State.FirstFrame (s : State) (p : Nat) : Prop where
  lower : s.posN ≤ p
  room : p + 7 ≤ s.endN
  frame : s.frameAt p
  first : ∀ r, s.posN ≤ r → r < p → ¬ s.frameAt r

/-- The scan of ADTS.FIND: the window from POS on. -/
def windowScan (s : State) : ScanEnd := scan s (s.endN - s.posN) s.posN

theorem windowScan_eq_header_iff : windowScan s = .header p ↔ s.FirstFrame p := by
  refine ⟨fun h => ?_, fun ⟨hlo, hroom, hframe, hfirst⟩ => ?_⟩
  · obtain ⟨hlo, hroom, hacc, hfirst⟩ := scan_header h
    exact ⟨hlo, by omega, accepts_iff.1 hacc, fun r hr hrp => accepts_eq_false_iff.1 (hfirst r hr hrp)⟩
  · exact scan_eq_header hlo (by omega) (accepts_iff.2 hframe) fun r hr hrp => accepts_eq_false_iff.2 (hfirst r hr hrp)

/-- Where the scan found nothing, nothing with 7 bytes left starts a frame (R63). -/
theorem windowScan_noSync (h : windowScan s = .noSync p) :
    ∀ r, s.posN ≤ r → r + 7 ≤ s.endN → ¬ s.frameAt r :=
  fun r hr h7 => accepts_eq_false_iff.1 ((scan_noSync h).2 r hr (by omega))

theorem windowScan_eq_noSync (hw : s.windowOk) (h : ∀ r, s.posN ≤ r → r + 7 ≤ s.endN → ¬ s.frameAt r) :
    windowScan s = .noSync (max s.posN (s.endN - 6)) := by
  obtain ⟨hle, -⟩ := hw
  have hscan : windowScan s = .noSync (max s.posN (s.posN + (s.endN - s.posN) - 6)) :=
    scan_eq_noSync fun r hr h7 => accepts_eq_false_iff.2 (h r hr (by omega))
  rwa [Nat.add_sub_cancel' hle] at hscan

/-- Where a scan ended. -/
def ScanEnd.pos : ScanEnd → Nat
  | .noSync p => p
  | .header p => p

/-- A scan ends between its start and the end of its bytes. -/
theorem scan_pos_bounds (s : State) (rem p : Nat) : p ≤ (scan s rem p).pos ∧ (scan s rem p).pos ≤ p + rem := by
  cases h : scan s rem p with
  | noSync q => obtain ⟨hq, -⟩ := scan_noSync h; simp only [ScanEnd.pos]; omega
  | header q => obtain ⟨hlo, hhi, -, -⟩ := scan_header h; simp only [ScanEnd.pos]; omega

theorem windowScan_pos_le (hw : s.windowOk) : (windowScan s).pos ≤ s.endN := by
  obtain ⟨hle, -⟩ := hw
  have := (scan_pos_bounds s (s.endN - s.posN) s.posN).2
  rw [windowScan]; omega

/-! ### What ADTS.FIND reports where the scan ended (R61 to R66) -/

/-- `CONSUMED` at a frame start: the whole frame, or nothing of one that does not end in the window (R61, R62). -/
def consumed (s : State) (p : Nat) : Nat := if s.endN - p < s.lengthAt p then 0 else s.lengthAt p

/-- The code where the scan ended. -/
def scanCode (s : State) : ScanEnd → StatusCode
  | .noSync _ => .noSync
  | .header p => if s.endN - p < s.lengthAt p then .needMore else .found

/-- The eight results where the scan ended. -/
def scanResults (s : State) : ScanEnd → List Nat
  | .noSync p => [p, 0, 0, 0, p - s.posN, 0, 0, 0]
  | .header p =>
    [p + consumed s p, p, s.lengthAt p, consumed s p, p - s.posN, hdrA s p, hdrB s p, freqHz s p]

/-- The results are eight. -/
theorem scanResults_range (s : State) (e : ScanEnd) :
    ((List.range 8).map fun k => (scanResults s e).getD k 0) = scanResults s e := by
  cases e <;> rfl

theorem consumed_whole (h : s.lengthAt p ≤ s.endN - p) : consumed s p = s.lengthAt p := if_neg (Nat.not_lt.2 h)

theorem consumed_part (h : s.endN - p < s.lengthAt p) : consumed s p = 0 := if_pos h

theorem consumed_le (s : State) (p : Nat) : consumed s p ≤ s.endN - p := by
  rw [consumed]; split <;> omega

theorem scanCode_found (h : s.lengthAt p ≤ s.endN - p) : scanCode s (.header p) = .found := if_neg (Nat.not_lt.2 h)

theorem scanCode_needMore (h : s.endN - p < s.lengthAt p) : scanCode s (.header p) = .needMore := if_pos h

theorem adtsReport_eq_complete (s : State) (e : ScanEnd) :
    adtsReport s e = complete (scanCode s e) (scanResults s e) s := by
  cases e with
  | noSync p => rfl
  | header p =>
    simp only [adtsReport, scanCode, scanResults, consumed, frameLength_eq]
    split <;> rfl

/-- `FREQ_TABLE` entries 1 to 10 are the parameter (R6). -/
theorem freqTable_inner (inner : Vector Word 10) (j : Fin 10) : freqTable inner (j.val + 1) = inner[j].toNat := by
  have := j.isLt
  rw [freqTable, if_neg (by omega), if_neg (by omega), dif_pos (by omega)]
  rfl

/-- An index past the table is Unknown (R66). -/
theorem freqTable_unknown (inner : Vector Word 10) {k : Nat} (h : 12 ≤ k) : freqTable inner k = 0 := by
  rw [freqTable, if_neg (by omega), if_neg (by omega), dif_neg (by omega)]

theorem freqTable_lt (inner : Vector Word 10) (k : Nat) : freqTable inner k < 2 ^ 32 := by
  rw [freqTable]
  split
  · decide
  · split
    · decide
    · split
      · exact BitVec.isLt _
      · decide

/-- What ADTS.FIND reports of its window fits the result registers (R14). -/
theorem scanResults_lt (h : e.pos ≤ s.endN) : ∀ r ∈ scanResults s e, r < 2 ^ 32 := by
  have hend : s.endN < 2 ^ 32 := s.wend.isLt
  cases e with
  | noSync p =>
    have hp : p ≤ s.endN := h
    simp only [scanResults, List.forall_mem_cons, List.not_mem_nil, false_implies, implies_true, and_true]
    omega
  | header p =>
    have hp : p ≤ s.endN := h
    have hlen := lengthAt_lt s p
    have hcons := consumed_le s p
    have ha : hdrA s p < 2 ^ 18 := field_lt ..
    have hb : hdrB s p < 2 ^ 13 := field_lt ..
    have hfreq : freqHz s p < 2 ^ 32 := freqTable_lt ..
    simp only [scanResults, List.forall_mem_cons, List.not_mem_nil, false_implies, implies_true, and_true]
    omega

/-! ### The answers of ADTS.FIND -/

theorem exec_adtsFind_ready (h : s.Ready) :
    exec .adtsFind s = .next (complete (scanCode s (windowScan s)) (scanResults s (windowScan s)) s) := by
  rw [← adtsReport_eq_complete]
  exact h.run _

/-- On a ready window ADTS.FIND ends with the code and the results of where its scan ended. -/
theorem adtsFind_ends (h : s.Ready) (he : windowScan s = e) :
    ∃ t, exec .adtsFind s = .next t ∧ s.Ends t (scanCode s e).code (scanResults s e) := by
  subst he
  have hends := complete_ends (scanCode s (windowScan s)) s (scanResults_lt (windowScan_pos_le h.window))
  rw [scanResults_range] at hends
  exact ⟨_, exec_adtsFind_ready h, hends⟩

/-- An answer of ADTS.FIND on a legal window is of where its scan ended. -/
structure ReportsScan (s t : State) (e : ScanEnd) : Prop where
  scan : windowScan s = e
  code : t.code = (scanCode s e).code
  results : ∀ k : Fin 8, t.resultN k = (scanResults s e).getD k 0

/-- SKIP counts the bytes from POS to where the scan ended (R61 to R63). -/
theorem ReportsScan.skip (h : ReportsScan s t e) : t.resultN 4 = e.pos - s.posN :=
  (h.results 4).trans (by cases e <;> rfl)

theorem adtsFind_reportsScan (hw : s.windowOk) (h : exec .adtsFind s = .next t) : ReportsScan s t (windowScan s) := by
  have ht : adtsReport s (windowScan s) = t := Host.Outcome.next.inj (windowOk_next hw h)
  rw [adtsReport_eq_complete] at ht
  subst ht
  refine ⟨rfl, complete_code, fun k => ?_⟩
  rw [complete_resultN, zext32_toNat (getD_lt_two_pow (scanResults_lt (windowScan_pos_le hw)) k)]

/-- FOUND and NEED_MORE are of the first frame start, which SYNC_POS reports. -/
theorem adtsFind_reportsHeader (h : exec .adtsFind s = .next t) (hcode : t.code = 2 ∨ t.code = 3) :
    ReportsScan s t (.header (t.resultN 1)) := by
  obtain ⟨hw, -⟩ := exec_position h (by omega)
  have hrep := adtsFind_reportsScan hw h
  cases he : windowScan s with
  | noSync p =>
    rw [he] at hrep
    have hnone : t.code = 4 := hrep.code
    omega
  | header p =>
    rw [he] at hrep
    have hpos : t.resultN 1 = p := hrep.results 1
    exact hpos ▸ hrep

section
variable (h : ReportsScan s t (.header p))
include h

theorem ReportsScan.firstFrame : s.FirstFrame p := windowScan_eq_header_iff.1 h.scan
theorem ReportsScan.nextPos : t.resultN 0 = p + consumed s p := h.results 0
theorem ReportsScan.syncPos : t.resultN 1 = p := h.results 1
theorem ReportsScan.frameLen : t.resultN 2 = s.lengthAt p := h.results 2
theorem ReportsScan.consumed : t.resultN 3 = consumed s p := h.results 3
theorem ReportsScan.hdrA : t.resultN 5 = hdrA s p := h.results 5
theorem ReportsScan.hdrB : t.resultN 6 = hdrB s p := h.results 6
theorem ReportsScan.freqHz : t.resultN 7 = freqHz s p := h.results 7

end

/-! ### The scan from one byte on (R60, R68) -/

/-- The scan reads BUF alone, so it does not depend on POS. -/
theorem scan_of_pos (s : State) (v : Word) (rem p : Nat) : scan { s with pos := v } rem p = scan s rem p := by
  induction rem generalizing p with
  | zero => rfl
  | succ rem ih => rw [scan, scan, ih]; rfl

/-- Past a position that starts no frame the scan goes on one byte further (R68). -/
theorem scan_advance {rem : Nat} (h7 : 7 ≤ rem + 1) (h : ¬ s.frameAt p) :
    scan s (rem + 1) p = scan s rem (p + 1) := by
  rw [scan, if_neg (Nat.not_lt.2 h7), if_neg (mt accepts_iff.1 h)]

/-- The code does not depend on POS. -/
theorem scanCode_of_pos (s : State) (v : Word) (e : ScanEnd) : scanCode { s with pos := v } e = scanCode s e := by
  cases e <;> rfl

/-- Of the results only SKIP depends on POS. -/
theorem scanResults_of_pos (s : State) (v : Word) (e : ScanEnd) {k : Fin 8} (hk : k ≠ 4) :
    (scanResults { s with pos := v } e).getD k 0 = (scanResults s e).getD k 0 := by
  have hset : scanResults { s with pos := v } e = (scanResults s e).set 4 (e.pos - v.toNat) := by cases e <;> rfl
  have hne : 4 ≠ k.val := fun h4 => hk (Fin.ext h4.symm)
  rw [hset, List.getD_eq_getElem?_getD, List.getElem?_set_ne hne, ← List.getD_eq_getElem?_getD]

theorem posN_succ (h : s.posN < s.endN) : State.posN { s with pos := s.pos + 1#32 } = s.posN + 1 := by
  have hend : s.endN < 2 ^ 32 := s.wend.isLt
  exact BitVec.toNat_add_of_lt (y := 1#32) (show s.posN + 1 < 2 ^ 32 by omega)

/-- A ready window that is not empty is ready without its first byte. -/
theorem State.Ready.advance (h : s.Ready) (hlt : s.posN < s.endN) : State.Ready { s with pos := s.pos + 1#32 } where
  window := ⟨(posN_succ hlt).trans_le hlt, h.window.2⟩
  bytes a ha hb := h.bytes a (by rw [posN_succ hlt] at ha; omega) hb
  cap := h.cap

theorem windowScan_advance (h7 : s.posN + 7 ≤ s.endN) (h : ¬ s.frameAt s.posN) :
    windowScan { s with pos := s.pos + 1#32 } = windowScan s := by
  obtain ⟨n, hn⟩ : ∃ n, s.endN - s.posN = n + 1 := ⟨s.endN - s.posN - 1, by omega⟩
  rw [windowScan, scan_of_pos, posN_succ (by omega), windowScan, hn, scan_advance (by omega) h]
  exact congrArg (scan s · _) (show s.endN - (s.posN + 1) = n by omega)

/-! ### A header moved to another place (R103, R104) -/

section
variable {q : Nat} (h : ∀ k, k < 7 → s.byte (p + k) = t.byte (q + k))
include h

theorem lengthAt_of_equal_bytes : s.lengthAt p = t.lengthAt q := by
  rw [State.lengthAt, State.lengthAt, h 3 (by decide), h 4 (by decide), h 5 (by decide)]

theorem frameAt_of_equal_bytes (hf : t.frameAt q) : s.frameAt p := by
  have h0 : s.byte p = t.byte q := h 0 (by decide)
  rwa [State.frameAt, h0, h 1 (by decide), lengthAt_of_equal_bytes h]

theorem hdrA_of_equal_bytes : hdrA s p = hdrA t q := field_of_equal_bytes h (by decide)
theorem hdrB_of_equal_bytes : hdrB s p = hdrB t q := field_of_equal_bytes h (by decide)

theorem freqHz_of_equal_bytes (hfreq : s.freq = t.freq) : freqHz s p = freqHz t q := by
  rw [freqHz, freqHz, hdrA_of_equal_bytes h, hfreq]

end

end

/-- Settles O30: the candidate test by bytes, and the 12-bit field as those bytes. -/
theorem candidateIsTheTwelveBitSyncWord : Obligations.CandidateIsTheTwelveBitSyncWord := by
  intro s p
  have hbyte := byte_lt s p
  have hnext := byte_lt s (p + 1)
  refine ⟨isCandidate_iff s p, ?_⟩
  rw [isCandidate_iff, field_syncWord]
  omega

/-- Settles O31: the frame length by bytes, and a 13-bit field's range. -/
theorem frameLengthSpansThreeBytes : Obligations.FrameLengthSpansThreeBytes := by
  intro s p
  refine ⟨rfl, ?_, Nat.le_of_lt_succ (field_lt s (8 * p + 30) 13)⟩
  rw [frameLength_eq, State.lengthAt, Nat.and_two_pow_sub_one_eq_mod (s.byte (p + 3)) 2]

/-- Settles O32: the scan finds the first frame start, and the whole frame is consumed. -/
theorem adtsFindReportsAFrame : Obligations.AdtsFindReportsAFrame := by
  intro s p hready hlo hroom hframe hfirst hlen
  have hends := adtsFind_ends hready (windowScan_eq_header_iff.2 ⟨hlo, hroom, hframe, hfirst⟩)
  rwa [scanCode_found hlen, scanResults, consumed_whole hlen] at hends

/-- Settles O33: the scan finds the first frame start, and nothing of the frame is consumed. -/
theorem adtsFindNeedsMore : Obligations.AdtsFindNeedsMore := by
  intro s p hready hlo hroom hframe hfirst hlen
  have hends := adtsFind_ends hready (windowScan_eq_header_iff.2 ⟨hlo, hroom, hframe, hfirst⟩)
  rwa [scanCode_needMore hlen, scanResults, consumed_part hlen] at hends

/-- Settles O34: the scan finds no frame start and ends where fewer than 7 bytes are left. -/
theorem adtsFindNoSync : Obligations.AdtsFindNoSync := by
  intro s hready hno
  exact ⟨by omega, adtsFind_ends hready (windowScan_eq_noSync hready.window hno)⟩

/-- Settles O35: an answer is of where the scan ended, and the scan ends at the first frame start or finds none. -/
theorem adtsFindAnswersTheFirstFrame : Obligations.AdtsFindAnswersTheFirstFrame := by
  intro s t _ hw h
  have hrep := adtsFind_reportsScan hw h
  cases he : windowScan s with
  | noSync p =>
    rw [he] at hrep
    exact .inl ⟨hrep.code, windowScan_noSync he⟩
  | header p =>
    rw [he] at hrep
    obtain ⟨hlo, hroom, hframe, hfirst⟩ := hrep.firstFrame
    have hskip : t.resultN 4 = p - s.posN := hrep.skip
    rw [hrep.code, hrep.nextPos, hrep.syncPos, hrep.frameLen, hrep.consumed, hskip]
    refine .inr ⟨hlo, hroom, hframe, hfirst, rfl, by omega, ?_⟩
    rcases Nat.lt_or_ge (s.endN - p) (s.lengthAt p) with hlen | hlen
    · rw [scanCode_needMore hlen, consumed_part hlen]
      exact .inr ⟨rfl, by omega, rfl, rfl⟩
    · rw [scanCode_found hlen, consumed_whole hlen]
      exact .inl ⟨rfl, by omega, rfl, by omega⟩

/-- Settles O36: the scans from POS and from POS + 1 end at the same place, and only SKIP is counted from POS. -/
theorem adtsFindAdvancesOneByte : Obligations.AdtsFindAdvancesOneByte := by
  intro s hready h7 hno
  have hready' := hready.advance (by omega)
  have hexec := exec_adtsFind_ready hready
  have hexec' := exec_adtsFind_ready hready'
  have hrep := adtsFind_reportsScan hready.window hexec
  have hrep' := adtsFind_reportsScan hready'.window hexec'
  have hlower : s.posN + 1 ≤ (windowScan s).pos := by
    rw [← windowScan_advance h7 hno, ← posN_succ (by omega)]
    exact (scan_pos_bounds ..).1
  rw [windowScan_advance h7 hno] at hexec' hrep'
  refine ⟨_, _, hexec, hexec', ?_, ?_, fun k hk => BitVec.eq_of_toNat_eq ?_⟩
  · rw [complete_status, complete_status, scanCode_of_pos s (s.pos + 1#32)]
  · rw [hrep.skip, hrep'.skip, posN_succ (by omega)]
    omega
  · have hother := scanResults_of_pos s (s.pos + 1#32) (windowScan s) hk
    exact (hrep.results k).trans (hother.symm.trans (hrep'.results k).symm)

/-- Settles O37: each part of HDR_A and HDR_B lies in one header byte, or crosses from one to the next. -/
theorem adtsHeaderFields : Obligations.AdtsHeaderFields := by
  intro s t _ h hcode p a b hp ha hb
  have hrep := adtsFind_reportsHeader h hcode
  rw [← hp] at hrep
  have hA : a = field s (8 * p + 12) 18 := ha.trans hrep.hdrA
  have hB : b = field s (8 * p + 43) 13 := hb.trans hrep.hdrB
  rw [hA, hB, hrep.frameLen]
  exact ⟨rfl, rfl,
    slice_field_of_byte s (by omega), slice_field_of_byte s (by omega), slice_field_of_byte s (by omega),
    slice_field_of_byte s (by omega), slice_field_of_byte s (by omega), slice_field_of_byte s (by omega),
    slice_field_of_bytes s (by omega),
    slice_field_of_byte s (by omega), slice_field_of_byte s (by omega), slice_field_of_byte s (by omega),
    slice_field_of_byte s (by omega), slice_eq_zero_of_lt (field_lt ..),
    slice_field_of_bytes s (by omega), slice_field_of_byte s (by omega), slice_eq_zero_of_lt (field_lt ..), rfl⟩

/-- Settles O38: the profile field lies in header byte 2, and the classes are its four values. -/
theorem adtsProfileClass : Obligations.AdtsProfileClass := by
  intro s t _ h hcode f hf
  have hrep := adtsFind_reportsHeader h hcode
  have hbyte := byte_lt s (t.resultN 1 + 2)
  have hfield : slice (t.resultN 5) 13 12 = f := by
    rw [hrep.hdrA, hdrA, slice_field_of_byte s (a := t.resultN 1 + 2) (hi' := 7) (lo' := 6) (by omega), slice, hf]
    omega
  have hlt : f < 4 := by omega
  refine ⟨hfield, ?_⟩
  rw [profileOf, hfield]
  interval_cases f <;> rfl

/-- Settles O39: the index lies in header byte 2, and FREQ_HZ is the table at it. -/
theorem adtsFrequency : Obligations.AdtsFrequency := by
  intro s t _ h hcode k hk
  have hrep := adtsFind_reportsHeader h hcode
  have hfreq : t.resultN 7 = freqTable s.freq k := by rw [hrep.freqHz, freqHz, ← hrep.hdrA, hk]
  refine ⟨?_, fun h0 => ?_, fun j hj => ?_, fun h11 => ?_, fun h12 => ?_⟩
  · rw [hk, hrep.hdrA]
    exact slice_field_of_byte s (hi' := 5) (lo' := 2) (by omega)
  · rw [hfreq, h0]; rfl
  · rw [hj, freqTable_inner] at hfreq
    exact BitVec.eq_of_toNat_eq hfreq
  · rw [hfreq, h11]; rfl
  · rw [hfreq, freqTable_unknown s.freq h12]

/-- Settles O40: the moved header starts a frame at POS with the same fields, and now the frame ends in the window. -/
theorem refillCompletesTheFrame : Obligations.RefillCompletesTheFrame := by
  intro s t s' _ h hcode hready hfreq hend hbytes
  have hrep := adtsFind_reportsHeader h (.inr hcode)
  have hlen := lengthAt_of_equal_bytes hbytes
  rw [hrep.frameLen, ← hlen] at hend ⊢
  have hframe := frameAt_of_equal_bytes hbytes hrep.firstFrame.frame
  have h7 : 7 ≤ s'.lengthAt s'.posN := hframe.2.2
  have hends := adtsFindReportsAFrame s' s'.posN hready (Nat.le_refl _) (by omega) hframe (fun r hr hrp => by omega)
    (by omega)
  rwa [hdrA_of_equal_bytes hbytes, hdrB_of_equal_bytes hbytes, freqHz_of_equal_bytes hbytes hfreq, Nat.sub_self,
    ← hrep.hdrA, ← hrep.hdrB, ← hrep.freqHz] at hends

end Sys2Proof.Machine
end

section
/-! The statements of family 42_rtp: the two outcomes of RTP.DEC on a ready window (O41, O42), the header's fields
(O43), and the payload classes (O44). -/

namespace Sys2Proof.Machine

section
variable {s t : State}

/-! ### Big-endian fields by bytes (R10, R72) -/

theorem bigEndian_two (s : State) (a : Nat) : s.bigEndian a 2 = s.byte a * 2 ^ 8 + s.byte (a + 1) := by
  rw [bigEndian_succ, bigEndian_succ, bigEndian_zero, Nat.zero_mul, Nat.zero_add, Nat.add_zero]

theorem bigEndian_four (s : State) (a : Nat) :
    s.bigEndian a 4 =
      s.byte a * 2 ^ 24 + s.byte (a + 1) * 2 ^ 16 + s.byte (a + 2) * 2 ^ 8 + s.byte (a + 3) := by
  rw [bigEndian_succ, bigEndian_succ, bigEndian_two]
  ring

/-! ### What RTP.DEC reports of a datagram of at least 12 bytes (R71 to R76) -/

/-- The payload type: the low seven bits of the datagram's byte 1 (R72). -/
def payloadType (s : State) : Nat := s.byte (s.posN + 1) % 128

/-- The eight results, with the header's fields as big-endian values of its bytes. -/
def rtpResults (s : State) : List Nat :=
  [s.posN + 12, s.endN - s.posN - 12, s.bigEndian s.posN 2, s.bigEndian (s.posN + 2) 2, s.bigEndian (s.posN + 4) 4,
    s.bigEndian (s.posN + 8) 4, (payloadClass (payloadType s)).code, payloadType s]

/-- The results are eight. -/
theorem rtpResults_range (s : State) : ((List.range 8).map fun k => (rtpResults s).getD k 0) = rtpResults s := rfl

/-- The payload type lies in byte 1, the second byte of HDR01. -/
theorem slice_hdr01_payloadType (s : State) : slice (s.bigEndian s.posN 2) 6 0 = payloadType s := by
  have hbits : slice (field s (8 * s.posN) 16) 6 0 = slice (s.byte (s.posN + 1)) 6 0 :=
    slice_field_of_byte s (by omega)
  rw [← field_bytes, hbits, slice, Nat.pow_zero, Nat.div_one]
  rfl

theorem rtpReport_eq_complete (s : State) : rtpReport s = complete .ok (rtpResults s) s := by
  have hhdr : field s (8 * s.posN) 16 = s.bigEndian s.posN 2 := field_bytes s s.posN 2
  have hseq : field s (8 * s.posN + 16) 16 = s.bigEndian (s.posN + 2) 2 := field_bytes s (s.posN + 2) 2
  have htime : field s (8 * s.posN + 32) 32 = s.bigEndian (s.posN + 4) 4 := field_bytes s (s.posN + 4) 4
  have hssrc : field s (8 * s.posN + 64) 32 = s.bigEndian (s.posN + 8) 4 := field_bytes s (s.posN + 8) 4
  simp only [rtpReport, rtpResults, hhdr, hseq, htime, hssrc, slice_hdr01_payloadType]

theorem payloadType_lt (s : State) : payloadType s < 128 := Nat.mod_lt _ (by decide)

theorem PayloadClass.code_le (c : PayloadClass) : c.code ≤ 6 := by cases c <;> decide

/-- What RTP.DEC reports of a whole header fits the result registers (R14). -/
theorem rtpResults_lt (h : s.posN + 12 ≤ s.endN) : ∀ r ∈ rtpResults s, r < 2 ^ 32 := by
  have hend : s.endN < 2 ^ 32 := s.wend.isLt
  have hhdr := bigEndian_lt s s.posN 2
  have hseq := bigEndian_lt s (s.posN + 2) 2
  have htime := bigEndian_lt s (s.posN + 4) 4
  have hssrc := bigEndian_lt s (s.posN + 8) 4
  have hclass := (payloadClass (payloadType s)).code_le
  have htype := payloadType_lt s
  simp only [rtpResults, List.forall_mem_cons, List.not_mem_nil, false_implies, implies_true, and_true]
  omega

/-! ### The answers of RTP.DEC -/

/-- A ready window of at least 12 bytes is decoded. -/
theorem exec_rtpDec_whole (h : s.Ready) (hlen : s.posN + 12 ≤ s.endN) :
    exec .rtpDec s = .next (complete .ok (rtpResults s) s) := by
  rw [← rtpReport_eq_complete]
  exact (h.run _).trans (if_neg (by omega))

/-- A ready window of fewer than 12 bytes is not (R73). -/
theorem exec_rtpDec_truncated (h : s.Ready) (hlen : s.endN < s.posN + 12) :
    exec .rtpDec s = .next (raise .truncated s) :=
  (h.run _).trans (if_pos (by omega))

/-- RTP.DEC ends with OK on a whole header alone, and its results are that header's. -/
theorem rtpDec_results (h : exec .rtpDec s = .next t) (hcode : t.code = 1) (k : Fin 8) :
    t.resultN k = (rtpResults s).getD k 0 := by
  obtain ⟨hw, -⟩ := exec_position h (by omega)
  have ht := windowOk_next hw h
  split at ht
  · cases ht
    rw [raise_eq_complete, complete_code] at hcode
    cases hcode
  · next hlen =>
    have hwhole : s.posN + 12 ≤ s.endN := by
      have := hw.1
      omega
    rw [rtpReport_eq_complete] at ht
    cases ht
    rw [complete_resultN, zext32_toNat (getD_lt_two_pow (rtpResults_lt hwhole) k)]

/-! ### Payload classes (R75) -/

theorem payloadClass_audio {pt : Nat} (h : pt ≤ 18) : payloadClass pt = .audio := if_pos h

/-- The payload types without a class of their own. -/
theorem payloadClass_other {pt : Nat} (h : (19 ≤ pt ∧ pt ≤ 30) ∨ (35 ≤ pt ∧ pt ≤ 95) ∨ 97 ≤ pt) :
    payloadClass pt = .other := by
  rw [payloadClass, if_neg (by omega), if_neg (by omega), if_neg (by omega), if_neg (by omega), if_neg (by omega),
    if_neg (by omega)]

/-- MP2T, whose class is 4, is payload type 33 alone. -/
theorem payloadClass_code_eq_four_iff {pt : Nat} : (payloadClass pt).code = 4 ↔ pt = 33 := by
  refine ⟨fun h => ?_, fun h => by rw [h]; rfl⟩
  by_contra hne
  rw [payloadClass, if_neg hne] at h
  split_ifs at h <;> cases h

end

/-- Settles O41: a whole header is decoded, and its big-endian fields are written out by bytes. -/
theorem rtpDecodesTheHeader : Obligations.RtpDecodesTheHeader := by
  intro s hready hlen
  have hends := complete_ends .ok s (rtpResults_lt hlen)
  rw [rtpResults_range] at hends
  refine ⟨_, exec_rtpDec_whole hready hlen, ?_⟩
  simpa only [rtpResults, bigEndian_two, bigEndian_four, payloadType, Nat.add_assoc, Nat.reduceAdd,
    StatusCode.code] using hends

/-- Settles O42: a short datagram raises TRUNCATED. -/
theorem rtpTruncatedHeader : Obligations.RtpTruncatedHeader := fun s hready hlen =>
  ⟨_, exec_rtpDec_truncated hready hlen, raise_ends .truncated s⟩

/-- Settles O43: HDR01 is the 16-bit field at POS, and each of its parts lies in one of its two bytes. -/
theorem rtpHeaderFields : Obligations.RtpHeaderFields := by
  intro s t _ h hcode hdr p hh hp
  subst hp
  have hres := rtpDec_results h hcode
  have hhdr : hdr = field s (8 * s.posN) 16 := (hh.trans (hres 2)).trans (field_bytes s s.posN 2).symm
  rw [hhdr]
  exact ⟨slice_field_of_byte s (by omega), slice_field_of_byte s (by omega), slice_field_of_byte s (by omega),
    slice_field_of_byte s (by omega), slice_field_of_byte s (by omega), slice_field_of_byte s (by omega),
    slice_eq_zero_of_lt (field_lt ..), hres 3, hres 4, hres 5⟩

/-- Settles O44: RES7 is the payload type, of seven bits, and RES6 the code of its class. -/
theorem rtpPayloadClass : Obligations.RtpPayloadClass := by
  intro s t h hcode pt hpt
  have htype : pt = payloadType s := hpt.trans (rtpDec_results h hcode 7)
  have hclass : t.resultN 6 = (payloadClass pt).code := by
    rw [htype]
    exact rtpDec_results h hcode 6
  rw [hclass]
  refine ⟨htype ▸ payloadType_lt s, fun haudio => ?_, ?_, ?_, ?_, ?_, ?_, fun hother => ?_,
    payloadClass_code_eq_four_iff⟩
  · rw [payloadClass_audio haudio]; rfl
  · rintro rfl; rfl
  · rintro rfl; rfl
  · rintro rfl; rfl
  · rintro rfl; rfl
  · rintro rfl; rfl
  · rw [payloadClass_other hother]; rfl

end Sys2Proof.Machine
end

section
/-! The statements of family 43_mpegts: the truth of every answer of TS.SCAN (O45), and its two ends on a ready window
(O46, O47). -/

namespace Sys2Proof.Machine

section
variable {s t : State} {e e' : WalkEnd}

/-! ### The walk of the window (R79) -/

/-- A byte as a natural is 0x47 when the byte read is the sync byte (R80). -/
theorem byte_eq_sync_iff {a : Nat} : s.byte a = 0x47 ↔ memRead s a = 0x47#8 := BitVec.toNat_inj (y := 0x47#8)

/-- The walk TS.SCAN makes: from POS, over the window's full strides. -/
def windowWalk (s : State) : WalkEnd := walk s ((s.endN - s.posN) / 188) s.posN 0

/-- Where a walk of the window has to end: after accepted strides from POS on (R80), with less than a stride left (R81)
or at a full stride without the sync byte (R82). -/
structure State.WalksTo (s : State) (e : WalkEnd) : Prop where
  next : e.next = s.posN + 188 * e.count
  room : e.next ≤ s.endN
  synced : ∀ k < e.count, s.byte (s.posN + 188 * k) = 0x47
  stop : (e.stop = 0 ∧ s.endN - e.next < 188) ∨ (e.stop = 1 ∧ 188 ≤ s.endN - e.next ∧ s.byte e.next ≠ 0x47)

theorem windowWalk_walksTo (h : s.posN ≤ s.endN) : s.WalksTo (windowWalk s) := by
  obtain ⟨hnext, -, hsync, hstop⟩ := walk_spec s ((s.endN - s.posN) / 188) s.posN 0
  refine ⟨hnext, ?_, fun k hk => byte_eq_sync_iff.2 (hsync k hk), ?_⟩
  · rw [windowWalk]; omega
  · rw [ne_eq, byte_eq_sync_iff, windowWalk]
    rcases hstop with ⟨h0, hcount⟩ | ⟨h1, hcount, hbad⟩
    · exact .inl ⟨h0, by omega⟩
    · exact .inr ⟨h1, by omega, hbad⟩

/-- A walk does not end before an accepted stride. -/
theorem State.WalksTo.count_le (h : s.WalksTo e) (h' : s.WalksTo e') : e'.count ≤ e.count := by
  by_contra hlt
  have hsync : s.byte e.next = 0x47 := h.next ▸ h'.synced e.count (by omega)
  have hnext := h.next
  have hnext' := h'.next
  have hroom' := h'.room
  rcases h.stop with ⟨-, hshort⟩ | ⟨-, -, hbad⟩
  · omega
  · exact hbad hsync

/-- There is one place where a walk of the window can end. -/
theorem State.WalksTo.unique (h : s.WalksTo e) (h' : s.WalksTo e') : e = e' := by
  have hcount : e.count = e'.count := Nat.le_antisymm (h'.count_le h) (h.count_le h')
  have hnext : e.next = e'.next := by rw [h.next, h'.next, hcount]
  have hstop : e.stop = e'.stop := by
    have hs := h.stop
    have hs' := h'.stop
    rw [hnext] at hs
    omega
  cases e
  cases e'
  exact (WalkEnd.mk.injEq ..).mpr ⟨hnext, hcount, hstop⟩

theorem windowWalk_eq (h : s.WalksTo e) : windowWalk s = e := by
  have hstart : s.posN ≤ e.next := h.next ▸ Nat.le_add_right ..
  exact (windowWalk_walksTo (hstart.trans h.room)).unique h

/-! ### The answers of TS.SCAN -/

/-- The results where the walk ended: NEXT, COUNT, STOP and DISCARD (R79). -/
def walkResults (s : State) (e : WalkEnd) : List Nat := [e.next, e.count, e.stop, s.endN - e.next]

theorem tsReport_eq_complete (s : State) (e : WalkEnd) : tsReport s e = complete .ok (walkResults s e) s := rfl

/-- What TS.SCAN reports of its window fits the result registers (R14). -/
theorem State.WalksTo.results_lt (h : s.WalksTo e) : ∀ r ∈ walkResults s e, r < 2 ^ 32 := by
  have hend : s.endN < 2 ^ 32 := s.wend.isLt
  have hnext := h.next
  have hroom := h.room
  have hstop := h.stop
  simp only [walkResults, List.forall_mem_cons, List.not_mem_nil, false_implies, implies_true, and_true]
  omega

/-- On a ready window TS.SCAN ends with OK and the results of where its walk has to end. -/
theorem tsScan_ends (hready : s.Ready) (h : s.WalksTo e) :
    ∃ t, exec .tsScan s = .next t ∧ s.Ends t 1 [e.next, e.count, e.stop, s.endN - e.next, 0, 0, 0, 0] := by
  have hexec : exec .tsScan s = .next (tsReport s (windowWalk s)) := hready.run _
  rw [windowWalk_eq h, tsReport_eq_complete] at hexec
  exact ⟨_, hexec, complete_ends .ok s h.results_lt⟩

/-- An answer of TS.SCAN on a legal window is OK, with the results of where its walk ended. -/
theorem tsScan_results (hw : s.windowOk) (h : exec .tsScan s = .next t) :
    t.code = 1 ∧ ∀ k : Fin 8, t.resultN k = (walkResults s (windowWalk s)).getD k 0 := by
  have ht : tsReport s (windowWalk s) = t := Host.Outcome.next.inj (windowOk_next hw h)
  subst ht
  refine ⟨complete_code, fun k => ?_⟩
  rw [tsReport_eq_complete, complete_resultN, zext32_toNat (getD_lt_two_pow (windowWalk_walksTo hw.1).results_lt k)]

end

/-- Settles O45: the answer reports where the walk of the window ended, and the walk ends where it has to. -/
theorem tsScanCountsTheLeadingStrides : Obligations.TsScanCountsTheLeadingStrides := by
  intro s t _ hw h
  obtain ⟨hcode, hres⟩ := tsScan_results hw h
  have hnext : t.resultN 0 = (windowWalk s).next := hres 0
  have hcount : t.resultN 1 = (windowWalk s).count := hres 1
  have hstop : t.resultN 2 = (windowWalk s).stop := hres 2
  have hdiscard : t.resultN 3 = s.endN - (windowWalk s).next := hres 3
  have hwalk := windowWalk_walksTo hw.1
  rw [hnext, hcount, hstop, hdiscard]
  exact ⟨hcode, hwalk.next, Nat.add_sub_cancel' hwalk.room, hwalk.synced, hwalk.stop⟩

/-- Settles O46: the walk has to end at the full stride that does not begin with 0x47. -/
theorem tsScanStopsAtTheFirstMismatch : Obligations.TsScanStopsAtTheFirstMismatch := by
  intro s c hready hfull hsync hbad
  have hwalk : s.WalksTo ⟨s.posN + 188 * c, c, 1⟩ :=
    ⟨rfl, by dsimp only; omega, hsync, .inr ⟨rfl, by dsimp only; omega, hbad⟩⟩
  exact tsScan_ends hready hwalk

/-- Settles O47: the walk has to end where fewer than 188 bytes are left. -/
theorem tsScanDiscardsTheRemainder : Obligations.TsScanDiscardsTheRemainder := by
  intro s c hready hroom hshort hsync
  have hwalk : s.WalksTo ⟨s.posN + 188 * c, c, 0⟩ :=
    ⟨rfl, hroom, hsync, .inl ⟨rfl, by dsimp only; omega⟩⟩
  exact tsScan_ends hready hwalk

end Sys2Proof.Machine
end

section
/-! The statement of family 60_exceptions: the frame of every command, and that nothing but the fault of R100 stops the
engine (O20). -/

namespace Sys2Proof.Machine

section
variable {s : State} {r : Result}

/-- An answer that does not stop the engine, but for the fault on an unwritten byte (R85, R100). -/
def NextOrUnwritten (r : Result) : Prop := (∃ t, r = .next t) ∨ ∃ a, r = .fault (.unwrittenByte a)

theorem nextOrUnwritten_next (t : State) : NextOrUnwritten (.next t) := .inl ⟨t, rfl⟩

theorem nextOrUnwritten_fault (a : Nat) : NextOrUnwritten (.fault (.unwrittenByte a)) := .inr ⟨a, rfl⟩

/-- The window check and the read footprint add no other way to stop than the fault of R100. -/
theorem window_nextOrUnwritten (h : NextOrUnwritten r) : NextOrUnwritten (withWindow s (readingWindow s r)) := by
  rcases window_cases s r with ⟨-, he⟩ | ⟨-, -, he⟩ | ⟨-, b, -, -, -, he⟩ <;> rw [he]
  · exact nextOrUnwritten_next _
  · exact h
  · exact nextOrUnwritten_fault b

theorem execBfx_nextOrUnwritten (width bitoff : Nat) (s : State) : NextOrUnwritten (execBfx width bitoff s) := by
  rcases execBfx_cases width bitoff s with ⟨-, he⟩ | ⟨-, -, -, he⟩ | ⟨-, -, b, -, -, -, he⟩ <;> rw [he]
  · exact nextOrUnwritten_next _
  · exact nextOrUnwritten_next _
  · exact nextOrUnwritten_fault b

/-- No command is refused: BFX by its three ways, the others by their window and a rest that does not stop. -/
theorem exec_nextOrUnwritten (i : Instr) (s : State) : NextOrUnwritten (exec i s) := by
  cases i with
  | bfx width bitoff => exact execBfx_nextOrUnwritten width bitoff s
  | adtsFind => exact window_nextOrUnwritten (nextOrUnwritten_next _)
  | rtpDec =>
    refine window_nextOrUnwritten ?_
    split
    · exact nextOrUnwritten_next _
    · exact nextOrUnwritten_next _
  | tsScan => exact window_nextOrUnwritten (nextOrUnwritten_next _)

/-- The engine step of any word: an illegal one ends in ERR_OPCODE, and a command does not stop either (R43, R85). -/
theorem issue_nextOrUnwritten (s : State) : NextOrUnwritten (issue s) := by
  cases hd : decode s.cmd with
  | error e => rw [issue_illegal hd]; exact nextOrUnwritten_next _
  | ok i => rw [issue_command hd]; exact exec_nextOrUnwritten i s

end

/-- Settles O20: every next state of a command is made by `complete`, which keeps the other fields, and the engine step
does not stop but for the fault of R100 (`issue_nextOrUnwritten`). -/
theorem engineChangesOnlyStatusAndResults : Obligations.EngineChangesOnlyStatusAndResults := by
  refine ⟨fun i s t h => ?_, fun s w => ?_⟩
  · obtain ⟨c, rs, -, rfl⟩ := exec_next h
    exact ⟨complete_cmd .., complete_pos .., complete_wend .., complete_cap .., complete_freq ..,
      fun a => by rw [complete_buf], complete_buf .., complete_host .., complete_rdReg .., complete_rdBuf ..,
      complete_freeCount ..⟩
  · rw [regWrite_cmd]
    exact issue_nextOrUnwritten _

end Sys2Proof.Machine
end

section
/-! The statements of family 70_reset_and_hazards: reset and IDLE (O17), no history of earlier results (O21), and the
fault on an unwritten byte (O24). -/

namespace Sys2Proof.Machine

section
variable {s t : State} {i : Instr} {r : Result} {lo hi width bitoff : Nat}

/-! ### IDLE is reset's code, and no command's answer (R22, R99) -/

@[simp] theorem applyReset_code (s : State) : (applyReset s).code = 0 := by simp [State.code, slice]

theorem StatusCode.code_eq_zero_iff {c : StatusCode} : c.code = 0 ↔ c = .idle := by
  cases c <;> decide

theorem issue_code_ne_zero (h : issue s = .next t) : t.code ≠ 0 := by
  obtain ⟨c, rs, hc, rfl⟩ := issue_next h
  rw [complete_code]
  exact mt StatusCode.code_eq_zero_iff.1 hc

/-- An event that leaves the code IDLE found it so or is a reset: a write of CMD ends in another code, and any other
event keeps STATUS. -/
theorem perform_code_eq_zero {e : HostEvent} (h : perform e s = .next t) (hcode : t.code = 0) :
    s.code = 0 ∨ e = .reset := by
  by_cases hcmd : ∃ d, e = .regWrite 0 d
  · obtain ⟨d, rfl⟩ := hcmd
    have hissue : issue { s with cmd := d.value s } = .next t := h
    exact absurd hcode (issue_code_ne_zero hissue)
  · by_cases hreset : e = .reset
    · exact .inr hreset
    · have hstatus : t.status = s.status := (perform_keeps h).status (not_exists.1 hcmd) hreset
      rw [State.code, hstatus] at hcode
      exact .inl hcode

/-! ### The engine step reads neither STATUS nor RES (R16, R107) -/

theorem issue_of_status_res (s : State) (st : Word) (rs : Vector Word 8) :
    issue { s with status := st, res := rs } = issue s := by
  cases hd : decode s.cmd with
  | error e =>
    rw [issue_illegal hd, issue_illegal (s := { s with status := st, res := rs }) hd]
    rfl
  | ok i =>
    rw [issue_command hd, issue_command (s := { s with status := st, res := rs }) hd, exec_of_status_res]

/-! ### Faults (R100) -/

/-- A range that is not all written has an unwritten byte. -/
theorem not_written_iff : ¬ s.written lo hi ↔ ∃ a, lo ≤ a ∧ a < hi ∧ s.buf.read a = none := by
  simp only [State.written, not_forall, exists_prop, Option.not_isSome_iff_eq_none]

/-- A command that reads its whole window faults exactly on a legal window with an unwritten byte, as its rest does
not fault. -/
theorem window_fault_iff (hrest : ∀ f, r ≠ .fault f) :
    (∃ f, withWindow s (readingWindow s r) = .fault f) ↔ s.windowOk ∧ ¬ s.written s.posN s.endN := by
  rcases window_cases s r with ⟨hbad, he⟩ | ⟨-, hwritten, he⟩ | ⟨hw, b, hlo, hhi, hnone, he⟩ <;> rw [he]
  · exact ⟨nofun, fun ⟨hw, _⟩ => absurd hw hbad⟩
  · exact ⟨fun ⟨f, hf⟩ => absurd hf (hrest f), fun ⟨_, hnot⟩ => absurd hwritten hnot⟩
  · exact ⟨fun _ => ⟨hw, not_written_iff.2 ⟨b, hlo, hhi, hnone⟩⟩, fun _ => ⟨_, rfl⟩⟩

/-- The three commands that read their whole window go on from there to a next state. -/
theorem exec_window_fault_iff (h : i = .adtsFind ∨ i = .rtpDec ∨ i = .tsScan) :
    (∃ f, exec i s = .fault f) ↔ s.windowOk ∧ ¬ s.written s.posN s.endN := by
  rcases h with rfl | rfl | rfl
  · exact window_fault_iff nofun
  · refine window_fault_iff fun f => ?_
    split
    · nofun
    · nofun
  · exact window_fault_iff nofun

/-- BFX faults exactly when every check passes and a byte its field spans is unwritten. -/
theorem execBfx_fault_iff :
    (∃ f, execBfx width bitoff s = .fault f) ↔
      s.windowOk ∧ bfxFits width bitoff s ∧ ¬ s.written s.posN (s.posN + bfxSpan width bitoff s) := by
  rcases execBfx_cases width bitoff s with ⟨hbad, he⟩ | ⟨-, -, hwritten, he⟩ | ⟨hw, hf, b, hlo, hhi, hnone, he⟩ <;>
    rw [he]
  · exact ⟨nofun, fun ⟨hw, hf, _⟩ => absurd ⟨hw, hf⟩ hbad⟩
  · exact ⟨nofun, fun ⟨_, _, hnot⟩ => absurd hwritten hnot⟩
  · exact ⟨fun _ => ⟨hw, hf, not_written_iff.2 ⟨b, hlo, hhi, hnone⟩⟩, fun _ => ⟨_, rfl⟩⟩

/-- `execBfx_fault_iff` with the byte of the field's last bit as the footprint's last. -/
theorem exec_bfx_fault_iff :
    (∃ f, exec (.bfx width bitoff) s = .fault f) ↔
      s.windowOk ∧ bfxFits width bitoff s ∧
        ∃ a, s.posN ≤ a ∧ a ≤ (8 * s.posN + bitoff + width - 1) / 8 ∧ s.buf.read a = none := by
  refine execBfx_fault_iff.trans (and_congr_right fun _ => and_congr_right fun hf => ?_)
  simp only [hf.span_end, not_written_iff, Nat.lt_succ_iff]

end

/-- Settles O17: the reset values of R30, and no other event makes the code IDLE (`perform_code_eq_zero`). -/
theorem resetIsTheOnlyWayToIdle : Obligations.ResetIsTheOnlyWayToIdle := by
  refine ⟨fun s rest h => ?_, fun s t h hcode => ?_⟩
  · have hstep : step s = .next (applyReset { s with host := rest }) := step_cons h
    exact ⟨_, hstep, rfl, rfl, applyReset_code _, rfl, rfl, noResults_get, rfl⟩
  · rcases step_next h with ⟨-, rfl⟩ | ⟨e, rest, hhost, hp⟩
    · exact .inl hcode
    · refine (perform_code_eq_zero hp hcode).imp_right fun hreset => ⟨rest, ?_⟩
      rw [hhost, hreset]

/-- Settles O21: the write of CMD issues the word's command, which reads neither STATUS nor RES. -/
theorem resultsDependOnNothingOlder : Obligations.ResultsDependOnNothingOlder := fun s w =>
  issue_of_status_res { s with cmd := w }

/-- Settles O24: the faults of a whole-window command and of BFX, and the next state that an illegal word has. -/
theorem commandsFaultExactlyOnUnwrittenFootprint : Obligations.CommandsFaultExactlyOnUnwrittenFootprint := by
  refine ⟨fun s => read_nil, fun s i hi => ?_, fun s width bitoff => ?_, fun s w e he f => ?_⟩
  · rw [exec_window_fault_iff hi, not_written_iff]
  · simpa only [and_assoc] using exec_bfx_fault_iff (s := s) (width := width) (bitoff := bitoff)
  · rw [regWrite_illegal ⟨e, he⟩]
    nofun

end Sys2Proof.Machine
end
